-- ==== Sys2Proof/Word.lean ====
section
/-! DEFINITION. The machine's one word type and the index of a register (R6, R8, R21). -/

namespace Sys2Proof

/-- `UInt8` of the spec: every register value, memory cell, operand byte and immediate is an
unsigned 8-bit integer (R8, `WIDTH` of R6). -/
abbrev Byte := BitVec 8

/-- The index of one of the `REG_COUNT` = 8 general registers (R6, R21). -/
abbrev RegIndex := Fin 8

end Sys2Proof
end

