-- ==== Sys2Proof/Config.lean ====
section
/-! DEFINITION. The implementation parameters of R6 that the spec leaves open: `MEM_SIZE`, `SP_INIT` and
`OPCODE_MAP`. Their default values stand in Sys2Proof/Machine/Defaults.lean. No rule of the spec leaves a
free value, so there is none here. -/

namespace Sys2Proof

/-- `OPCODE_MAP` (R6, R64): the byte value of each of the thirteen mnemonics. -/
structure OpcodeMap where
  hlt  : Byte
  ret  : Byte
  push : Byte
  pop  : Byte
  prn  : Byte
  call : Byte
  jmp  : Byte
  jeq  : Byte
  jne  : Byte
  ldi  : Byte
  add  : Byte
  mul  : Byte
  cmp  : Byte
  deriving DecidableEq, Repr

/-- The parameters a model takes (R6). `memSize` is `MEM_SIZE`, `spInit` is `SP_INIT`. The constraints
(3 ≤ `MEM_SIZE` ≤ 256, distinct opcode bytes) are `Config.valid` in Sys2Proof/WellFormed.lean. -/
structure Config where
  memSize : Nat
  spInit  : Byte
  opcodes : OpcodeMap
  deriving DecidableEq, Repr

end Sys2Proof
end

