-- ==== Sys2Proof/Machine/Defaults.lean ====
section
/-! DEFINITION. The default parameters and the reset values of R6, R33 and R64, each by name. -/

namespace Sys2Proof.Machine

/-- `SP_INDEX`: register 7 is the stack pointer (R6, R23). -/
abbrev spIndex : RegIndex := 7

/-- The default `OPCODE_MAP` (R64), the LS-8 values. PRESUMED (log 3): the spec takes them from general
knowledge (G2), the source gives none. Unsafe at the default. -/
def defaultOpcodes : OpcodeMap :=
  { hlt := 0x01, ret := 0x11, push := 0x45, pop := 0x46, prn := 0x47, call := 0x50, jmp := 0x54,
    jeq := 0x55, jne := 0x56, ldi := 0x82, add := 0xA0, mul := 0xA2, cmp := 0xA7 }

/-- The default parameters (R6): 256 cells (log 2), `SP_INIT` 0xF4 (PRESUMED, log 4, unsafe). -/
def defaultConfig : Config :=
  { memSize := 256, spInit := 0xF4, opcodes := defaultOpcodes }

/-- Reset value of R0..R6 (R33, decision D7; UNVERIFIED, log 6, unsafe). -/
def regInit : Byte := 0

/-- The entry point (R33, R181, decision D8; UNVERIFIED, log 8, unsafe). -/
def entryPoint : Nat := 0

/-- What a memory cell that nothing has written holds (R33, decision D9; UNVERIFIED, log 7, unsafe). -/
def unwrittenByte : Byte := 0

/-- Reset value of each of L, G and E (`FLAGS_INIT` of R6; R33, decision D5; UNVERIFIED, log 5, unsafe). -/
def flagInit : Bool := false

end Sys2Proof.Machine
end

