-- ==== Sys2Proof/Machine/State.lean ====
section
/-! DEFINITION. The machine state of R20 as plain data, the reasons a step can stop, and the reset state of
R33 and R180. -/

namespace Sys2Proof.Machine

/-- The three condition flags, three independent Booleans with no byte encoding (R26, R27). -/
structure Flags where
  less    : Bool
  greater : Bool
  equal   : Bool
  deriving DecidableEq, Repr

/-- The error kinds of R161. -/
inductive ErrorKind where
  | addressing
  | invalidRegister
  | decode
  /-- Named by the status interface only; no step raises it (R83, R163). -/
  | unsupportedOperation
  deriving DecidableEq, Repr

/-- The fault record of R161: the kind, the address of the faulting instruction's opcode byte, and the
kind's information (an integer: an address may be −1). -/
structure FaultRecord where
  kind : ErrorKind
  pc   : Nat
  info : Int
  deriving DecidableEq, Repr

/-- The run state of R28. Halted and Faulted are final. -/
inductive RunState where
  | running
  | halted
  | faulted (f : FaultRecord)
  deriving DecidableEq, Repr

/-- The memory array (R40) as the cells that differ from the unwritten byte, addresses strictly rising.
Read and written only through Sys2Proof/Machine/Memory.lean. -/
abbrev Memory := List Host.Cell

/-- The whole state (R20): nothing else is state. `cfg` is the model's own field: the parameters of R6,
which the spec does not count as state and no step writes (DESIGN CHOICE, log 1, safe). `pc` is a natural
number: it never wraps, and the invariant in Sys2Proof/Safety.lean bounds it (R24; log 9). -/
structure State where
  reg   : Vector Byte 8
  pc    : Nat
  flags : Flags
  mem   : Memory
  run   : RunState
  out   : List Byte
  cfg   : Config
  deriving DecidableEq, Repr

/-- Why the machine takes no step. The spec's own errors are not here: they are next states whose run state
is Faulted (R166). -/
inductive Fault where
  /-- Raised by step alone, in a state whose run state is Halted: no step is taken from it (R28, R80).
  Safe: nothing is claimed of a next state. -/
  | halted
  /-- Raised by step alone, in a state whose run state is Faulted, with its record: no step is taken from it
  (R28, R80, R167). Safe: nothing is claimed of a next state. -/
  | faulted (f : FaultRecord)
  deriving DecidableEq, Repr

/-- Why an instruction has no meaning. -/
inductive Refusal where
  /-- Raised by exec's arm of an instruction that is not modelled. No arm raises it: all thirteen are
  modelled. Safe. -/
  | notModelled (mnemonic : String)
  deriving DecidableEq, Repr

/-- The outcome of a step or of an instruction. -/
abbrev Outcome := Host.Outcome State Fault Refusal

/-- The state after reset with parameters `c`, before anything is loaded (R33, R180 item 1): R0..R6 hold 0,
R7 holds `SP_INIT`, the pc is the entry point, the flags are cleared, every cell is 0, the run state is
Running and nothing has been emitted. -/
def State.resetWith (c : Config) : State :=
  { reg := (Vector.replicate 8 regInit).set spIndex c.spInit
    pc := entryPoint
    flags := { less := flagInit, greater := flagInit, equal := flagInit }
    mem := []
    run := .running
    out := []
    cfg := c }

/-- The machine right after reset, with the default parameters (R6, R33). -/
def State.reset : State := State.resetWith defaultConfig

end Sys2Proof.Machine
end

