-- ==== Sys2Proof/Machine/Memory.lean ====
section
/-! DEFINITION. The memory array behind the contract of R40: reading and writing one cell of the canonical
list. Range checks stand in Sys2Proof/Machine/Ops.lean. -/

namespace Sys2Proof.Machine

/-- The byte at a cell; an unlisted cell holds the unwritten byte (R33). -/
def Memory.read : Memory → Nat → Byte
  | [], _ => unwrittenByte
  | (k, v) :: rest, a => if k = a then v else Memory.read rest a

/-- The memory without any entry for a cell: the cell then holds the unwritten byte. -/
def Memory.erase (m : Memory) (a : Nat) : Memory := m.filter (fun c => decide (c.1 ≠ a))

/-- An entry put before the first entry of a higher address. -/
def Memory.insert : Memory → Nat → Byte → Memory
  | [], a, v => [(a, v)]
  | (k, w) :: rest, a, v => if a < k then (a, v) :: (k, w) :: rest else (k, w) :: Memory.insert rest a v

/-- Stores a byte at a cell, keeping the canonical form: the unwritten byte is stored by listing nothing. No
other cell changes (R45). -/
def Memory.write (m : Memory) (a : Nat) (v : Byte) : Memory :=
  if v = unwrittenByte then m.erase a else (m.erase a).insert a v

/-- The canonical form from an address on: addresses strictly rising, none below `lo`, no cell holding the
unwritten byte. -/
def Memory.wfFrom : Nat → Memory → Bool
  | _, [] => true
  | lo, (k, v) :: rest => decide (lo ≤ k) && decide (v ≠ unwrittenByte) && Memory.wfFrom (k + 1) rest

/-- The canonical form of memory: equal memories are equal lists. -/
def Memory.wf (m : Memory) : Bool := Memory.wfFrom 0 m

/-- Every listed cell exists: its address is below `n` (R40). -/
def Memory.below (n : Nat) (m : Memory) : Bool := m.all (fun c => decide (c.1 < n))

/-- The bytes stored at `a`, `a + 1`, … in order. -/
def Memory.writeAll : Memory → Nat → List Byte → Memory
  | m, _, [] => m
  | m, a, v :: vs => Memory.writeAll (Memory.write m a v) (a + 1) vs

end Sys2Proof.Machine
end

