-- ==== Sys2Proof/Machine/Ops.lean ====
section
/-! DEFINITION. The named operations on the state: registers, pc, output, raising a fatal error, the memory
contract (R40) and the two stack primitives (R132, R133). -/

namespace Sys2Proof.Machine

/-- `x[i]` (R9): reads a register. -/
def State.readReg (s : State) (i : RegIndex) : Byte := s.reg.get i

/-- `x[i] <- v` (R9): writes a register. -/
def State.writeReg (s : State) (i : RegIndex) (v : Byte) : State := { s with reg := s.reg.set i v }

/-- `pc <- target` (R9, R24): no masking, no check (R146). -/
def State.setPc (s : State) (target : Nat) : State := { s with pc := target }

/-- The three flags written together, as Compare does (R26). -/
def State.setFlags (s : State) (f : Flags) : State := { s with flags := f }

/-- `emit(v)` (R9, R29): appends a byte to the output stream. -/
def State.emit (s : State) (v : Byte) : State := { s with out := s.out ++ [v] }

/-- `halt` (R9, R28): the run state becomes Halted. -/
def State.halt (s : State) : State := { s with run := .halted }

/-- A fatal error before it is recorded: its kind and information (R161). -/
structure CoreError where
  kind : ErrorKind
  info : Int
  deriving DecidableEq, Repr

/-- FAULT ENTRY (R166), the one shared operation that takes an error: the run state becomes Faulted with the
record (kind, pc of the faulting instruction, info) of R161, and nothing else changes. There is no return
from a fault (R167), so no operation beside it. -/
def State.raise (s : State) (e : CoreError) : State :=
  { s with run := .faulted { kind := e.kind, pc := s.pc, info := e.info } }

/-- The end of an instruction started in `s`: its writes are committed, or it raised an error and nothing of
it is committed (R86, R166). -/
def commit (s : State) (r : Except CoreError State) : Outcome :=
  match r with
  | .ok t => .next t
  | .error e => .next (s.raise e)

/-- The range check of R40: an address outside `[0, MEM_SIZE)` raises AddressingError with that address. It
is never masked. -/
def State.checkAddress (s : State) (addr : Int) : Except CoreError Nat :=
  if 0 ≤ addr ∧ addr < (s.cfg.memSize : Int) then .ok addr.toNat
  else .error { kind := .addressing, info := addr }

/-- `MemRead(addr, 1)` (R9, R40). -/
def State.memRead (s : State) (addr : Int) : Except CoreError Byte :=
  match s.checkAddress addr with
  | .ok a => .ok (s.mem.read a)
  | .error e => .error e

/-- `MemWrite(addr, 1, v)` (R9, R40). -/
def State.memWrite (s : State) (addr : Int) (v : Byte) : Except CoreError State :=
  match s.checkAddress addr with
  | .ok a => .ok { s with mem := s.mem.write a v }
  | .error e => .error e

/-- `StackPush(e)` (R132): the stack pointer is decremented on integers and checked, then written, and then
the value is evaluated, in the state whose stack pointer is already the new one, and stored at the new top. -/
def State.stackPush (s : State) (value : State → Byte) : Except CoreError State :=
  let sp1 : Int := ((s.readReg spIndex).toNat : Int) - 1
  match s.checkAddress sp1 with
  | .error e => .error e
  | .ok a =>
    let s1 := s.writeReg spIndex (BitVec.ofNat 8 a)
    s1.memWrite sp1 (value s1)

/-- Where `StackPop()` puts the popped byte (R133): a register (POP) or the pc (RET). -/
inductive PopDest where
  | reg (i : RegIndex)
  | pc
  deriving DecidableEq, Repr

/-- The popped byte written to its destination. -/
def PopDest.put (d : PopDest) (v : Byte) (s : State) : State :=
  match d with
  | .reg i => s.writeReg i v
  | .pc => s.setPc v.toNat

/-- `StackPop()` (R133): the byte at SP is read, the stack pointer as it stands after that byte is written to
the destination is incremented on integers and checked, and only then are the destination and the stack
pointer written. -/
def State.stackPop (s : State) (dest : PopDest) : Except CoreError State :=
  let sp0 := s.readReg spIndex
  match s.memRead (sp0.toNat : Int) with
  | .error e => .error e
  | .ok v =>
    let spAfter := if dest = .reg spIndex then v else sp0
    match s.checkAddress ((spAfter.toNat : Int) + 1) with
    | .error e => .error e
    | .ok a => .ok ((dest.put v s).writeReg spIndex (BitVec.ofNat 8 a))

end Sys2Proof.Machine
end

