-- ==== Sys2Proof/Machine/Flags.lean ====
section
/-! DEFINITION. The one flag computation of the machine: Compare's (R26, R102). No other instruction writes a
flag. -/

namespace Sys2Proof.Machine

/-- Less, Greater and Equal from the unsigned comparison of two register values (R102). -/
def compareFlags (u v : Byte) : Flags :=
  { less := decide (u.toNat < v.toNat)
    greater := decide (v.toNat < u.toNat)
    equal := decide (u.toNat = v.toNat) }

end Sys2Proof.Machine
end

