-- ==== Sys2Proof/Machine/Operands.lean ====
section
/-! DEFINITION. Operand forms (R61, R84, R85): a register operand is the whole operand byte, an immediate is
the byte as it stands (R62), a code target is a register's value (R146). -/

namespace Sys2Proof.Machine

/-- Validation of one register operand (R85): the whole byte is the index, and 8 or more raises
InvalidRegisterError with that index. -/
def regOperand (v : Byte) : Except CoreError RegIndex :=
  if h : v.toNat < 8 then .ok ⟨v.toNat, h⟩
  else .error { kind := .invalidRegister, info := (v.toNat : Int) }

/-- One register operand (format R, and operand_a of format RI), checked before the instruction executes. -/
def withReg (a : Byte) (k : RegIndex → Except CoreError State) : Except CoreError State :=
  match regOperand a with
  | .ok i => k i
  | .error e => .error e

/-- Two register operands (format RR), operand_a checked first (R85). -/
def withRegs (a b : Byte) (k : RegIndex → RegIndex → Except CoreError State) : Except CoreError State :=
  withReg a (fun i => withReg b (fun j => k i j))

/-- A code target (R146): the register's value, 0..255, not checked here. -/
def State.target (s : State) (i : RegIndex) : Nat := (s.readReg i).toNat

end Sys2Proof.Machine
end

