-- ==== Sys2Proof/Machine/Alu.lean ====
section
/-! DEFINITION. The ALU and its three instructions: ADD, MUL, CMP (R100 to R104). -/

namespace Sys2Proof.Machine

/-- The ALU's closed set of operations (R103). It has no other selector, so UnsupportedOperationError cannot
arise (R83, R163). -/
inductive AluOp where
  | add
  | mul
  | compare
  deriving DecidableEq, Repr

/-- `wrap` (R8): an exact result narrowed to a register, modulo 256. -/
def wrap (v : Nat) : Byte := BitVec.ofNat 8 v

/-- One ALU operation on two register indices, writing the first register or the flags (R103). Both operands
are read before the write. -/
def alu (op : AluOp) (i j : RegIndex) (s : State) : State :=
  let u := s.readReg i
  let v := s.readReg j
  match op with
  | .add => s.writeReg i (wrap (u.toNat + v.toNat))
  | .mul => s.writeReg i (wrap (u.toNat * v.toNat))
  | .compare => s.setFlags (compareFlags u v)

/-- ADD (R100). -/
def execAdd (a b : Byte) (s : State) : Outcome :=
  commit s (withRegs a b (fun i j => .ok ((alu .add i j s).setPc (s.pc + 3))))

/-- MUL (R101). -/
def execMul (a b : Byte) (s : State) : Outcome :=
  commit s (withRegs a b (fun i j => .ok ((alu .mul i j s).setPc (s.pc + 3))))

/-- CMP (R102). -/
def execCmp (a b : Byte) (s : State) : Outcome :=
  commit s (withRegs a b (fun i j => .ok ((alu .compare i j s).setPc (s.pc + 3))))

end Sys2Proof.Machine
end

