-- ==== Sys2Proof/Machine/Control.lean ====
section
/-! DEFINITION. Control transfer and halt: CALL, RET, JMP, JEQ, JNE, HLT (R140 to R145). -/

namespace Sys2Proof.Machine

/-- CALL's return address (R140): the byte `pc + 2`, the next instruction (90_conflicts.md C1). The fetch has
checked that it fits a byte. DESIGN CHOICE (log 17): in states no fetch reaches, its low eight bits. -/
def returnAddress (s : State) : Byte := BitVec.ofNat 8 (s.pc + 2)

/-- CALL (R140): the target register is read after the push. -/
def execCall (a : Byte) (s : State) : Outcome :=
  commit s (withReg a (fun i =>
    match s.stackPush returnAddress with
    | .ok t => .ok (t.setPc (t.target i))
    | .error e => .error e))

/-- RET (R141): no operand. -/
def execRet (s : State) : Outcome :=
  commit s (s.stackPop .pc)

/-- JMP (R142). -/
def execJmp (a : Byte) (s : State) : Outcome :=
  commit s (withReg a (fun i => .ok (s.setPc (s.target i))))

/-- A conditional jump: to the register's value if the condition holds, else to the next instruction. The
operand is checked in both cases (R85). -/
def jumpIf (taken : Bool) (a : Byte) (s : State) : Outcome :=
  commit s (withReg a (fun i => .ok (s.setPc (if taken then s.target i else s.pc + 2))))

/-- JEQ (R143): jumps if E is set. -/
def execJeq (a : Byte) (s : State) : Outcome := jumpIf s.flags.equal a s

/-- JNE (R144): jumps if E is clear. -/
def execJne (a : Byte) (s : State) : Outcome := jumpIf (!s.flags.equal) a s

/-- HLT (R145): the run state becomes Halted and the pc advances by 1. -/
def execHlt (s : State) : Outcome :=
  commit s (.ok (s.halt.setPc (s.pc + 1)))

end Sys2Proof.Machine
end

