-- ==== Sys2Proof/Machine/RegisterOutput.lean ====
section
/-! DEFINITION. Load-immediate and output: LDI (R120) and PRN (R121). -/

namespace Sys2Proof.Machine

/-- LDI (R120): the immediate byte unchanged (R62). -/
def execLdi (a imm : Byte) (s : State) : Outcome :=
  commit s (withReg a (fun i => .ok ((s.writeReg i imm).setPc (s.pc + 3))))

/-- PRN (R121). -/
def execPrn (a : Byte) (s : State) : Outcome :=
  commit s (withReg a (fun i => .ok ((s.emit (s.readReg i)).setPc (s.pc + 2))))

end Sys2Proof.Machine
end

