-- ==== Sys2Proof/Machine/Stack.lean ====
section
/-! DEFINITION. The stack instructions PUSH (R130) and POP (R131). -/

namespace Sys2Proof.Machine

/-- PUSH (R130): the operand register is read after the stack pointer is decremented. -/
def execPush (a : Byte) (s : State) : Outcome :=
  commit s (withReg a (fun i =>
    match s.stackPush (fun s1 => s1.readReg i) with
    | .ok t => .ok (t.setPc (s.pc + 2))
    | .error e => .error e))

/-- POP (R131). -/
def execPop (a : Byte) (s : State) : Outcome :=
  commit s (withReg a (fun i =>
    match s.stackPop (.reg i) with
    | .ok t => .ok (t.setPc (s.pc + 2))
    | .error e => .error e))

end Sys2Proof.Machine
end

