-- ==== Sys2Proof/Decode.lean ====
section
/-! DEFINITION. Decoding (R60, R61, R66, R68), total on any bytes and rejecting by name; and the encoder,
written from the same tables. -/

namespace Sys2Proof

/-- The four instruction formats of R60. -/
inductive Format where
  | rr  -- opcode, register, register
  | ri  -- opcode, register, immediate
  | r   -- opcode, register, one ignored byte
  | n   -- opcode, two ignored bytes
  deriving DecidableEq, Repr

/-- The format of each mnemonic (R60, R64). -/
def Mnemonic.format : Mnemonic → Format
  | .add | .mul | .cmp => .rr
  | .ldi => .ri
  | .prn | .push | .pop | .call | .jmp | .jeq | .jne => .r
  | .hlt | .ret => .n

/-- The bytes an instruction of a format occupies (R60). -/
def Format.length : Format → Nat
  | .rr => 3
  | .ri => 3
  | .r => 2
  | .n => 1

/-- `FETCH_WINDOW` (R6, R60): the bytes read per instruction, whatever its length. -/
def fetchWindowBytes : Nat := 3

/-- The byte value `OPCODE_MAP` gives a mnemonic (R64). -/
def OpcodeMap.byteOf (m : OpcodeMap) : Mnemonic → Byte
  | .hlt => m.hlt
  | .ret => m.ret
  | .push => m.push
  | .pop => m.pop
  | .prn => m.prn
  | .call => m.call
  | .jmp => m.jmp
  | .jeq => m.jeq
  | .jne => m.jne
  | .ldi => m.ldi
  | .add => m.add
  | .mul => m.mul
  | .cmp => m.cmp

/-- All thirteen mnemonics (R2). -/
def Mnemonic.all : List Mnemonic :=
  [.hlt, .ret, .push, .pop, .prn, .call, .jmp, .jeq, .jne, .ldi, .add, .mul, .cmp]

/-- Why bytes are no instruction. -/
inductive DecodeReject where
  /-- The opcode byte equals the value of no mnemonic, or of several (R66: "exactly one"). The machine
  turns it into DecodeError. Safe. -/
  | unknownOpcode (op : Byte)
  /-- Fewer than three bytes were given. The machine never does so: it fetches the whole window or raises
  AddressingError (R81). Safe. -/
  | shortWindow
  deriving DecidableEq, Repr

/-- The mnemonic whose value the opcode byte equals, matched whole (R66): selected if it is exactly one.
DEDUCED (log 18): a map in which two mnemonics share the byte selects neither. Safe. -/
def OpcodeMap.select (m : OpcodeMap) (op : Byte) : Option Mnemonic :=
  match Mnemonic.all.filter (fun k => m.byteOf k == op) with
  | [k] => some k
  | _ => none

/-- The instruction of a mnemonic with the window's operand bytes (R60, R61, R84); a byte the format
ignores is dropped (R63). -/
def Mnemonic.instr (k : Mnemonic) (a b : Byte) : Instr :=
  match k with
  | .hlt => .hlt
  | .ret => .ret
  | .push => .push a
  | .pop => .pop a
  | .prn => .prn a
  | .call => .call a
  | .jmp => .jmp a
  | .jeq => .jeq a
  | .jne => .jne a
  | .ldi => .ldi a b
  | .add => .add a b
  | .mul => .mul a b
  | .cmp => .cmp a b

/-- Decoding of a fetch window: opcode, operand_a, operand_b (R66, R82). -/
def decodeWindow (m : OpcodeMap) (op a b : Byte) : Except DecodeReject Instr :=
  match m.select op with
  | some k => .ok (k.instr a b)
  | none => .error (.unknownOpcode op)

/-- Decoding of any bytes: the first three are the window (R60). -/
def decode (m : OpcodeMap) : List Byte → Except DecodeReject Instr
  | op :: a :: b :: _ => decodeWindow m op a b
  | _ => .error .shortWindow

/-- The bytes an instruction occupies (R60, R68). -/
def Instr.length (i : Instr) : Nat := i.mnemonic.format.length

/-- The bytes of an instruction, lowest address first (R43, R60): as many as its length. -/
def encode (m : OpcodeMap) : Instr → List Byte
  | .hlt => [m.hlt]
  | .ret => [m.ret]
  | .push a => [m.push, a]
  | .pop a => [m.pop, a]
  | .prn a => [m.prn, a]
  | .call a => [m.call, a]
  | .jmp a => [m.jmp, a]
  | .jeq a => [m.jeq, a]
  | .jne a => [m.jne, a]
  | .ldi a imm => [m.ldi, a, imm]
  | .add a b => [m.add, a, b]
  | .mul a b => [m.mul, a, b]
  | .cmp a b => [m.cmp, a, b]

/-- The three window bytes of an instruction whose bits are `w`, numbered as spec/opcode_table.json numbers
them: the opcode byte is bits 7..0, operand_a bits 15..8, operand_b bits 23..16; bits from `nbits` on are 0. -/
def tableWordBytes (nbits w : Nat) : List Byte :=
  let v := w % 2 ^ nbits
  [BitVec.ofNat 8 v, BitVec.ofNat 8 (v / 256), BitVec.ofNat 8 (v / 65536)]

/-- What the decoder reads from an instruction given as the opcode table's bits, under the default map. -/
def decodeTableWord (nbits w : Nat) : Option Instr :=
  (decode Machine.defaultOpcodes (tableWordBytes nbits w)).toOption

end Sys2Proof
end

