-- ==== Sys2Proof/Machine/Fetch.lean ====
section
/-! DEFINITION. What a step does before it executes: whether it is taken at all (R80), the fetch of the
window (R81) and decoding (R82). -/

namespace Sys2Proof.Machine

/-- Why no step is taken, if none is (R80). -/
def stopReason : RunState → Option Fault
  | .running => none
  | .halted => some .halted
  | .faulted f => some (.faulted f)

/-- The fetch window: opcode, operand_a, operand_b (R60, R81). -/
structure Window where
  op : Byte
  a  : Byte
  b  : Byte
  deriving DecidableEq, Repr

/-- The fetch (R81): three reads at `pc`, `pc + 1`, `pc + 2`, in this order and whatever the opcode; the first
address outside memory raises AddressingError. -/
def fetchWindow (s : State) : Except CoreError Window :=
  match s.memRead (s.pc : Int) with
  | .error e => .error e
  | .ok op =>
    match s.memRead ((s.pc : Int) + 1) with
    | .error e => .error e
    | .ok a =>
      match s.memRead ((s.pc : Int) + 2) with
      | .error e => .error e
      | .ok b => .ok { op := op, a := a, b := b }

/-- Fetch, then decode (R81, R82): an opcode not in the map raises DecodeError with the opcode byte. -/
def fetchDecode (s : State) : Except CoreError Instr :=
  match fetchWindow s with
  | .error e => .error e
  | .ok w =>
    match decodeWindow s.cfg.opcodes w.op w.a w.b with
    | .ok i => .ok i
    | .error _ => .error { kind := .decode, info := (w.op.toNat : Int) }

/-- The bytes stored at `a`, `a + 1`, … that exist (R40); the bytes past the end of memory are dropped. Used
to place an instruction where the next fetch reads. -/
def State.placeBytes (s : State) (a : Nat) (bytes : List Byte) : State :=
  { s with mem := s.mem.writeAll a (bytes.take (s.cfg.memSize - a)) }

end Sys2Proof.Machine
end

