-- ==== Sys2Proof/Machine/Step.lean ====
section
/-! DEFINITION. The step of R88. -/

namespace Sys2Proof.Machine

/-- One step (R80, R88): taken only when Running; fetch, decode, then execute, or the error that fetching or
decoding raised. -/
def step (s : State) : Host.Outcome State Fault Refusal :=
  match stopReason s.run with
  | some r => .fault r
  | none =>
    match fetchDecode s with
    | .ok i => exec i s
    | .error e => .next (s.raise e)

/-- The state with an instruction, given as the opcode table's bits, in the window the next step fetches. -/
def State.withFetchWord (s : State) (nbits w : Nat) : State := s.placeBytes s.pc (tableWordBytes nbits w)

end Sys2Proof.Machine
end

