-- ==== Sys2Proof/Machine/Assembly.lean ====
section
/-! DEFINITION. The assembler text of R69 and R70, as the spec writes programs: notation only, no part of the
core. Text is a list of characters. -/

namespace Sys2Proof.Machine

/-- The mnemonic as the instruction table writes it (R69). -/
def mnemonicText : Mnemonic → List Char
  | .hlt => ['H', 'L', 'T']
  | .ret => ['R', 'E', 'T']
  | .push => ['P', 'U', 'S', 'H']
  | .pop => ['P', 'O', 'P']
  | .prn => ['P', 'R', 'N']
  | .call => ['C', 'A', 'L', 'L']
  | .jmp => ['J', 'M', 'P']
  | .jeq => ['J', 'E', 'Q']
  | .jne => ['J', 'N', 'E']
  | .ldi => ['L', 'D', 'I']
  | .add => ['A', 'D', 'D']
  | .mul => ['M', 'U', 'L']
  | .cmp => ['C', 'M', 'P']

/-- The decimal numeral of a byte (R69). -/
def decimalText (v : Byte) : List Char := Nat.toDigits 10 v.toNat

/-- `Rn` (R69, R70). An operand byte of 8 or more names no register and has no text. -/
def registerText (v : Byte) : Option (List Char) :=
  if v.toNat < 8 then some ('R' :: decimalText v) else none

/-- Two operands, operand_a first, with a comma between them (R69). -/
def operandPair (x y : List Char) : List Char := x ++ [',', ' '] ++ y

/-- The operands of an instruction as text; none where a register operand names no register. -/
def operandText : Instr → Option (List Char)
  | .hlt => some []
  | .ret => some []
  | .push a => registerText a
  | .pop a => registerText a
  | .prn a => registerText a
  | .call a => registerText a
  | .jmp a => registerText a
  | .jeq a => registerText a
  | .jne a => registerText a
  | .ldi a imm => (registerText a).map (fun x => operandPair x (decimalText imm))
  | .add a b => (registerText a).bind (fun x => (registerText b).map (operandPair x))
  | .mul a b => (registerText a).bind (fun x => (registerText b).map (operandPair x))
  | .cmp a b => (registerText a).bind (fun x => (registerText b).map (operandPair x))

/-- One instruction's line (R69): the mnemonic, then a space and the operands if there are any. -/
def assemblyText (i : Instr) : Option (List Char) :=
  (operandText i).map (fun ops =>
    match ops with
    | [] => mnemonicText i.mnemonic
    | c :: cs => mnemonicText i.mnemonic ++ ' ' :: c :: cs)

end Sys2Proof.Machine
end

