-- ==== Sys2Proof/Machine/Loader.lean ====
section
/-! DEFINITION. The load interface (R180, R183, R184): the program image's text form, placing the image, and
the state a run starts from. The loader acts only before the first step. -/

namespace Sys2Proof.Machine

/-- Why a load fails and no run starts (R164, R184). -/
inductive LoadFailure where
  /-- LoadError: the source is missing or unreadable. -/
  | sourceMissing
  /-- A non-empty token is not a string of `0`/`1` characters of value at most 255. -/
  | badToken
  /-- The image has more than `MEM_SIZE` bytes. -/
  | imageTooLong
  deriving DecidableEq, Repr

/-- The lines of a text. PRESUMED (log 19): a line ends at a line feed. -/
def splitLines (text : List Char) : List (List Char) :=
  text.foldr (fun c acc =>
    if c = '\n' then [] :: acc
    else match acc with
      | [] => [[c]]
      | line :: rest => (c :: line) :: rest) [[]]

/-- White space (R184 does not list it). PRESUMED (log 19): space, tab, carriage return, line feed. -/
def isSpace (c : Char) : Bool := c == ' ' || c == '\t' || c == '\r' || c == '\n'

/-- White space removed at both ends. -/
def trim (line : List Char) : List Char :=
  (((line.dropWhile isSpace).reverse).dropWhile isSpace).reverse

/-- The token of a line: what stands before a `#`, trimmed (R184). -/
def lineToken (line : List Char) : List Char := trim (line.takeWhile (fun c => c != '#'))

/-- The number a string of `0`/`1` characters spells, most significant digit first, after `acc`; none if it
holds another character. -/
def binaryValue : Nat → List Char → Option Nat
  | acc, [] => some acc
  | acc, c :: cs =>
    if c = '0' then binaryValue (2 * acc) cs
    else if c = '1' then binaryValue (2 * acc + 1) cs
    else none

/-- The byte of a non-empty token (R184): its value must be at most 255; fewer than 8 digits are the number
they spell. -/
def tokenByte (token : List Char) : Except LoadFailure Byte :=
  match binaryValue 0 token with
  | some v => if v ≤ 255 then .ok (BitVec.ofNat 8 v) else .error .badToken
  | none => .error .badToken

/-- The bytes of the lines, one per non-empty line, in order (R184). -/
def linesBytes : List (List Char) → Except LoadFailure (List Byte)
  | [] => .ok []
  | line :: rest =>
    match lineToken line with
    | [] => linesBytes rest
    | c :: cs =>
      match tokenByte (c :: cs) with
      | .error e => .error e
      | .ok v =>
        match linesBytes rest with
        | .error e => .error e
        | .ok vs => .ok (v :: vs)

/-- The image a text source holds (R184). -/
def parseSource (text : List Char) : Except LoadFailure (List Byte) := linesBytes (splitLines text)

/-- Placing an image at address 0, in order (R180 item 2, R183, R184): only memory changes; an image of more
than `MEM_SIZE` bytes fails. -/
def loadImage (image : List Byte) (s : State) : Except LoadFailure State :=
  if image.length ≤ s.cfg.memSize then .ok { s with mem := s.mem.writeAll 0 image }
  else .error .imageTooLong

/-- The state a run starts from (R180): reset, then load. `source` is none where the file is missing or
unreadable (R164). -/
def startRun (c : Config) (source : Option (List Char)) : Except LoadFailure State :=
  match source with
  | none => .error .sourceMissing
  | some text =>
    match parseSource text with
    | .error e => .error e
    | .ok image => loadImage image (State.resetWith c)

end Sys2Proof.Machine
end

