-- ==== Sys2Proof/Machine/Status.lean ====
section
/-! DEFINITION. The status interface (R34 item 4): the numeric codes of R161 and the host's reaction to the
run state (R173). -/

namespace Sys2Proof.Machine

/-- The numeric code of an error kind (R161). -/
def ErrorKind.code : ErrorKind → Nat
  | .addressing => 1
  | .invalidRegister => 2
  | .decode => 3
  | .unsupportedOperation => 4

/-- What the host does when a run has ended (R173). -/
inductive HostReaction where
  /-- Normal halt: the run loop ends and control returns to the caller. -/
  | returnsToCaller
  /-- DecodeError: the host reports the opcode value and the pc, and the process exits with a non-zero
  status. -/
  | reportsOpcodeAndExitsNonZero (opcode : Int) (pc : Nat)
  /-- Another fatal error: the run is aborted and the process exits with a non-zero status. -/
  | exitsNonZero
  deriving DecidableEq, Repr

/-- The host's reaction to the run state; none while the run goes on (R173). -/
def hostReaction : RunState → Option HostReaction
  | .running => none
  | .halted => some .returnsToCaller
  | .faulted f =>
    match f.kind with
    | .decode => some (.reportsOpcodeAndExitsNonZero f.info f.pc)
    | _ => some .exitsNonZero

end Sys2Proof.Machine
end

