-- ==== Sys2Proof/WellFormed.lean ====
section
/-! DEFINITION. The checks on terms: an instruction whose register operands name registers (R84, R85), and
parameters within their constraints (R6, R40, R64). -/

namespace Sys2Proof

/-- The operand byte names a register: it is below `REG_COUNT` (R61, R85). -/
def isRegister (v : Byte) : Bool := decide (v.toNat < 8)

/-- Every register operand names a register. An instruction that is not well formed is still decoded and
executed: it raises InvalidRegisterError (R67, R85). -/
def Instr.wellFormed (i : Instr) : Bool := i.regOperands.all isRegister

/-- The thirteen opcode bytes are distinct (R64). -/
def OpcodeMap.distinct (m : OpcodeMap) : Bool := decide (Mnemonic.all.map m.byteOf).Nodup

/-- The constraints of R6: 3 ≤ `MEM_SIZE` ≤ 256, and thirteen distinct opcode bytes (R64). Every byte is
admitted as `SP_INIT`. -/
def Config.valid (c : Config) : Bool :=
  decide (3 ≤ c.memSize) && decide (c.memSize ≤ 256) && c.opcodes.distinct

end Sys2Proof
end

