-- ==== Sys2Proof/Safety.lean ====
section
/-! DEFINITION. The vocabulary of the statements: the invariant, frames, the template every instruction rule
follows, and the spec's tables that speak of all instructions (R22, R87, R165, R184). -/

namespace Sys2Proof.Machine

/-! The invariant. -/

/-- What the fault record of a Faulted state says (R161, R162): the pc of that state, and information that
fits the kind. UnsupportedOperationError never occurs (R163). -/
def FaultRecord.Fits (f : FaultRecord) (s : State) : Prop :=
  f.pc = s.pc ∧
  match f.kind with
  | .addressing => f.info < 0 ∨ (s.cfg.memSize : Int) ≤ f.info
  | .invalidRegister => 8 ≤ f.info ∧ f.info ≤ 255
  | .decode => 0 ≤ f.info ∧ f.info ≤ 255 ∧ ∀ k : Mnemonic, ((s.cfg.opcodes.byteOf k).toNat : Int) ≠ f.info
  | .unsupportedOperation => False

/-- The invariant of the machine. -/
structure State.Inv (s : State) : Prop where
  /-- The parameters meet their constraints (R6, R64). -/
  cfg_valid : s.cfg.valid = true
  /-- The pc is a value an instruction can give it, 0 to 256, so it fits 9 bits (R24). -/
  pc_range : s.pc ≤ 256
  /-- At most one of L, G, E is set (R26: mutually exclusive). -/
  flags_exclusive : (s.flags.less && s.flags.greater) = false ∧ (s.flags.less && s.flags.equal) = false ∧
    (s.flags.greater && s.flags.equal) = false
  /-- Memory has its canonical form. -/
  mem_wf : s.mem.wf = true
  /-- Memory lists existing cells only (R40). -/
  mem_below : s.mem.below s.cfg.memSize = true
  /-- A fault record fits its state (R161, R162). -/
  fault_fits : ∀ f, s.run = .faulted f → f.Fits s

/-! Frames: what stays as it was. -/

/-- Every register but those listed. -/
def SameRegsBut (l : List RegIndex) (s t : State) : Prop := ∀ r, r ∉ l → t.readReg r = s.readReg r

/-- Every byte of memory but those at the listed addresses. -/
def SameBytesBut (l : List Nat) (s t : State) : Prop := ∀ a, a ∉ l → t.mem.read a = s.mem.read a

/-- The run state, the output stream and the parameters. -/
def SameRunOutCfg (s t : State) : Prop := t.run = s.run ∧ t.out = s.out ∧ t.cfg = s.cfg

/-- The state after a fatal error in `s` (R161, R166): only the run state differs. -/
def faultState (s : State) (kind : ErrorKind) (info : Int) : State :=
  { s with run := .faulted { kind := kind, pc := s.pc, info := info } }

/-- The stack pointer's value (R23). -/
def State.sp (s : State) : Nat := (s.readReg spIndex).toNat

/-- The run state is Faulted. -/
def State.isFaulted (s : State) : Prop := ∃ f, s.run = .faulted f

/-! The template of the instruction rules (41_alu.md): operands, encoding and exceptions. The effect is each
rule's own. -/

/-- The first operand byte that is no register index (R85). -/
def firstInvalid (l : List Byte) : Option Byte := l.find? (fun v => decide (8 ≤ v.toNat))

/-- What the rule of an instruction says besides its effect, for the mnemonic `k`, the instruction `ins a b`
with window bytes operand_a and operand_b, and the bytes `regs a b` that are register operands. -/
structure FollowsTemplate (k : Mnemonic) (ins : Byte → Byte → Instr) (regs : Byte → Byte → List Byte) : Prop where
  /-- Encoding (R60, R61, R64): the opcode byte of `k` at `pc`, operand_a at `pc + 1`, operand_b at
  `pc + 2`. -/
  encoding : ∀ s : State, s.cfg.valid = true → s.run = .running → s.pc + 2 < s.cfg.memSize →
    s.mem.read s.pc = s.cfg.opcodes.byteOf k →
    step s = exec (ins (s.mem.read (s.pc + 1)) (s.mem.read (s.pc + 2))) s
  /-- AddressingError from the fetch window (R81), before the instruction has any effect: of `pc`, `pc + 1`,
  `pc + 2` the first address that does not exist is `pc` or `MEM_SIZE`, whichever is larger. -/
  window : ∀ s : State, s.run = .running → s.mem.read s.pc = s.cfg.opcodes.byteOf k →
    s.cfg.memSize ≤ s.pc + 2 →
    step s = .next (faultState s .addressing ((max s.pc s.cfg.memSize : Nat) : Int))
  /-- InvalidRegisterError for the first register operand of 8 or more (R85). -/
  registers : ∀ (s : State) (a b n : Byte), firstInvalid (regs a b) = some n →
    exec (ins a b) s = .next (faultState s .invalidRegister (n.toNat : Int))

/-! Tables over all instructions. -/

/-- The registers an instruction writes (R22). -/
def writtenRegs : Instr → List Nat
  | .ldi a _ => [a.toNat]
  | .add a _ => [a.toNat]
  | .mul a _ => [a.toNat]
  | .cmp _ _ => []
  | .prn _ => []
  | .push _ => [7]
  | .pop a => [a.toNat, 7]
  | .call _ => [7]
  | .ret => [7]
  | .jmp _ => []
  | .jeq _ => []
  | .jne _ => []
  | .hlt => []

/-- The registers an instruction reads (R22). -/
def readRegs : Instr → List Nat
  | .ldi _ _ => []
  | .add a b => [a.toNat, b.toNat]
  | .mul a b => [a.toNat, b.toNat]
  | .cmp a b => [a.toNat, b.toNat]
  | .prn a => [a.toNat]
  | .push a => [7, a.toNat]
  | .pop _ => [7]
  | .call a => [7, a.toNat]
  | .ret => [7]
  | .jmp a => [a.toNat]
  | .jeq a => [a.toNat]
  | .jne a => [a.toNat]
  | .hlt => []

/-- The register an operand byte names; 0 where it names none (no rule reads it there). -/
def State.regByte (s : State) (a : Byte) : Byte := if h : a.toNat < 8 then s.readReg ⟨a.toNat, h⟩ else 0

/-- The next pc of each instruction (R87). CALL's target is read after the push, so `CALL R7` goes to the
decremented stack pointer. -/
def nextPc (i : Instr) (s : State) : Nat :=
  match i with
  | .ldi _ _ => s.pc + 3
  | .add _ _ => s.pc + 3
  | .mul _ _ => s.pc + 3
  | .cmp _ _ => s.pc + 3
  | .prn _ => s.pc + 2
  | .push _ => s.pc + 2
  | .pop _ => s.pc + 2
  | .call a => if a.toNat = 7 then s.sp - 1 else (s.regByte a).toNat
  | .ret => (s.mem.read s.sp).toNat
  | .jmp a => (s.regByte a).toNat
  | .jeq a => if s.flags.equal then (s.regByte a).toNat else s.pc + 2
  | .jne a => if s.flags.equal then s.pc + 2 else (s.regByte a).toNat
  | .hlt => s.pc + 1

/-- The address an instruction stores to (R41, R44): PUSH and CALL store one byte at the new stack pointer,
no other instruction stores. -/
def storedAt (i : Instr) (s : State) : List Nat :=
  match i with
  | .push _ => [s.sp - 1]
  | .call _ => [s.sp - 1]
  | _ => []

/-- The addresses of the window bytes a mnemonic's format ignores (R60, R63), for an instruction at `pc`. -/
def ignoredAt (k : Mnemonic) (pc : Nat) : List Nat :=
  match k.format with
  | .rr => []
  | .ri => []
  | .r => [pc + 2]
  | .n => [pc + 1, pc + 2]

/-- The address a mnemonic's instruction loads from beyond its fetch (R41, R44): POP and RET read one byte at
the stack pointer, no other instruction loads. -/
def loadedAt (k : Mnemonic) (s : State) : List Nat :=
  match k with
  | .pop => [s.sp]
  | .ret => [s.sp]
  | _ => []

/-- The instruction reaches memory beyond its fetch (R41, R44). -/
def usesStack : Instr → Bool
  | .push _ => true
  | .pop _ => true
  | .call _ => true
  | .ret => true
  | _ => false

/-- The stack check of an instruction (R165 item 4): the address it raises AddressingError with, if any. -/
def stackError (i : Instr) (s : State) : Option Int :=
  let M := s.cfg.memSize
  match i with
  | .push _ => if s.sp = 0 ∨ M < s.sp then some ((s.sp : Int) - 1) else none
  | .call _ => if s.sp = 0 ∨ M < s.sp then some ((s.sp : Int) - 1) else none
  | .pop a =>
    if M ≤ s.sp then some (s.sp : Int)
    else
      let after := if a.toNat = 7 then (s.mem.read s.sp).toNat else s.sp
      if M ≤ after + 1 then some ((after : Int) + 1) else none
  | .ret =>
    if M ≤ s.sp then some (s.sp : Int)
    else if M ≤ s.sp + 1 then some ((s.sp : Int) + 1) else none
  | _ => none

/-- The error a step reports (R165): the first that applies, in the order fetch, decode, operand_a,
operand_b, stack check. -/
def firstError (s : State) : Option (ErrorKind × Int) :=
  let M := s.cfg.memSize
  if M ≤ s.pc then some (.addressing, (s.pc : Int))
  else if M ≤ s.pc + 1 then some (.addressing, (s.pc : Int) + 1)
  else if M ≤ s.pc + 2 then some (.addressing, (s.pc : Int) + 2)
  else
    match decodeWindow s.cfg.opcodes (s.mem.read s.pc) (s.mem.read (s.pc + 1)) (s.mem.read (s.pc + 2)) with
    | .error _ => some (.decode, ((s.mem.read s.pc).toNat : Int))
    | .ok i =>
      match firstInvalid i.regOperands with
      | some n => some (.invalidRegister, (n.toNat : Int))
      | none => (stackError i s).map (fun a => (.addressing, a))

/-! The image text (R184). -/

/-- A string of white space. -/
def Blank (l : List Char) : Prop := ∀ c ∈ l, isSpace c = true

/-- What may follow the token: nothing, or a comment introduced by `#`. -/
def CommentOrNothing (l : List Char) : Prop := l = [] ∨ ∃ rest, l = '#' :: rest

/-- The digits of a binary literal and the number they spell, most significant first. -/
inductive Spells : List Char → Nat → Prop where
  | zero : Spells ['0'] 0
  | one : Spells ['1'] 1
  | snocZero {ds : List Char} {n : Nat} : Spells ds n → Spells (ds ++ ['0']) (2 * n)
  | snocOne {ds : List Char} {n : Nat} : Spells ds n → Spells (ds ++ ['1']) (2 * n + 1)

/-- Lines of an image text and the bytes they give, in order: a line that is blank but for a comment gives
none, a line with one literal of value at most 255 gives that byte. -/
inductive LinesGive : List (List Char) → List Byte → Prop where
  | none : LinesGive [] []
  | blank {w tail : List Char} {ls : List (List Char)} {bs : List Byte} :
      Blank w → CommentOrNothing tail → '\n' ∉ w ++ tail → LinesGive ls bs →
      LinesGive ((w ++ tail) :: ls) bs
  | literal {w ds w' tail : List Char} {n : Nat} {ls : List (List Char)} {bs : List Byte} :
      Blank w → Spells ds n → n ≤ 255 → Blank w' → CommentOrNothing tail → '\n' ∉ w ++ ds ++ w' ++ tail →
      LinesGive ls bs → LinesGive ((w ++ ds ++ w' ++ tail) :: ls) (BitVec.ofNat 8 n :: bs)

/-- A line whose token is no binary literal of value at most 255: it holds a character other than `0` and
`1`, or its value is too large. -/
def BadLine (line : List Char) : Prop :=
  ∃ w token w' tail, line = w ++ token ++ w' ++ tail ∧ Blank w ∧ Blank w' ∧ CommentOrNothing tail ∧
    '\n' ∉ line ∧ token ≠ [] ∧ (∀ c ∈ token, isSpace c = false ∧ c ≠ '#') ∧
    ((∃ c ∈ token, c ≠ '0' ∧ c ≠ '1') ∨ ∃ n, Spells token n ∧ 255 < n)

/-- The text of lines, each ended by a line feed. -/
def textOf : List (List Char) → List Char
  | [] => []
  | l :: ls => l ++ '\n' :: textOf ls

end Sys2Proof.Machine
end

