-- ==== Sys2Proof/Certificates/Slice0/Obligations.lean ====
section
/-! DEFINITION. The statements for the provers. "log n" is notes/assumptions/n.md; "D n" is an entry of
spec/92_eei_decisions.md, the spec's own decision, which its numbered rule states. -/

open Sys2Proof Sys2Proof.Machine

/-! Reset and the invariant. -/

/-- Reset values of 10_state.md and the default parameters. They rest on the spec's decisions D5 to D9 and,
for 0xF4 and the opcode bytes, on general knowledge (log 2 to 8), so this is a derived statement. -/
def Obligations.ResetHoldsTheSpecifiedValues : Prop :=
  (∀ c : Config,
    (∀ r : RegIndex, r ≠ 7 → (State.resetWith c).readReg r = 0) ∧
    (State.resetWith c).readReg 7 = c.spInit ∧
    (State.resetWith c).pc = 0 ∧
    (State.resetWith c).flags = { less := false, greater := false, equal := false } ∧
    (∀ a : Nat, (State.resetWith c).mem.read a = 0) ∧
    (State.resetWith c).run = .running ∧
    (State.resetWith c).out = [] ∧
    (State.resetWith c).cfg = c) ∧
  State.reset = State.resetWith defaultConfig ∧
  defaultConfig.memSize = 256 ∧ defaultConfig.spInit = 0xF4

/-- The invariant holds at reset, for every admitted parameter value, and loading keeps it. -/
def Obligations.ResetAndLoadMeetTheInvariant : Prop :=
  (∀ c : Config, c.valid = true → (State.resetWith c).Inv) ∧
  State.reset.Inv ∧
  (∀ (image : List Byte) (s t : State), s.Inv → loadImage image s = .ok t → t.Inv)

/-- Every step keeps the invariant: admitted parameters, a pc of at most 256, exclusive flags, canonical
memory of existing cells, a fitting fault record. It rests on the parameters riding in State (log 1) and on
the canonical memory list, so it is derived. -/
def Obligations.EveryStepKeepsTheInvariant : Prop :=
  ∀ s t : State, s.Inv → step s = .next t → t.Inv

/-- The parameters are no state of the machine: no step changes them (log 1). -/
def Obligations.NoStepChangesTheParameters : Prop :=
  ∀ s t : State, step s = .next t → t.cfg = s.cfg

/-! Encoding. -/

/-- Decoding an encoded instruction, followed by any bytes that fill the window, gives it back, with every
operand byte, for every map of distinct opcode bytes. -/
def Obligations.DecodeGivesBackTheEncodedInstruction : Prop :=
  ∀ (m : OpcodeMap) (i : Instr) (rest : List Byte), m.distinct = true →
    3 ≤ (encode m i ++ rest).length → decode m (encode m i ++ rest) = .ok i

/-- The other direction: a decoded window begins with the encoding of what was decoded, which is as long as
its format says. -/
def Obligations.DecodedWindowBeginsWithItsEncoding : Prop :=
  ∀ (m : OpcodeMap) (op a b : Byte) (i : Instr), decodeWindow m op a b = .ok i →
    (∃ rest, [op, a, b] = encode m i ++ rest) ∧ (encode m i).length = i.mnemonic.format.length

/-- R66: an opcode byte selects a mnemonic if it equals the value of exactly that one; otherwise the step
raises DecodeError(op, pc). -/
def Obligations.OpcodeByteIsMatchedWhole : Prop :=
  (∀ (m : OpcodeMap) (op a b : Byte) (k : Mnemonic),
    (∃ i, decodeWindow m op a b = .ok i ∧ i.mnemonic = k) ↔
      (m.byteOf k = op ∧ ∀ k', m.byteOf k' = op → k' = k)) ∧
  (∀ s : State, s.run = .running → s.pc + 2 < s.cfg.memSize →
    (¬ ∃ k, s.cfg.opcodes.byteOf k = s.mem.read s.pc ∧
      ∀ k', s.cfg.opcodes.byteOf k' = s.mem.read s.pc → k' = k) →
    step s = .next (faultState s .decode ((s.mem.read s.pc).toNat : Int)))

/-- R63: the value of a window byte the format ignores changes neither what is decoded nor the result of the
step: with other values there, every Running state steps to the same state but for those bytes. (A byte that
POP or RET also loads as the top of the stack is not ignored there: the instruction uses it.) Its address is
checked: a window that leaves memory raises AddressingError (D11). -/
def Obligations.IgnoredBytesHaveNoValueButAnAddress : Prop :=
  (∀ (m : OpcodeMap) (op a b a' b' : Byte) (k : Mnemonic), m.select op = some k → k.format = .n →
    decodeWindow m op a b = decodeWindow m op a' b') ∧
  (∀ (m : OpcodeMap) (op a b b' : Byte) (k : Mnemonic), m.select op = some k → k.format = .r →
    decodeWindow m op a b = decodeWindow m op a b') ∧
  (∀ (s t : State) (m : Memory) (k : Mnemonic), s.run = .running → s.pc + 2 < s.cfg.memSize →
    s.cfg.opcodes.select (s.mem.read s.pc) = some k →
    (∀ a, a ∉ ignoredAt k s.pc → m.read a = s.mem.read a) → (∀ a ∈ loadedAt k s, a ∉ ignoredAt k s.pc) →
    step s = .next t →
    ∃ t', step { s with mem := m } = .next t' ∧ { t' with mem := t.mem } = t ∧
      ∀ a, a ∉ ignoredAt k s.pc → t'.mem.read a = t.mem.read a) ∧
  (∀ s : State, s.run = .running → s.cfg.memSize ≤ s.pc + 2 →
    ∃ info : Int, (s.cfg.memSize : Int) ≤ info ∧ step s = .next (faultState s .addressing info))

/-- Words written from 30_encoding.md decode to what they stand for, one per mnemonic, under the default map
(log 3). -/
def Obligations.SampleWordsDecode : Prop :=
  decode defaultOpcodes [0x01, 0xEE, 0xEE] = .ok .hlt ∧
  decode defaultOpcodes [0x11, 0xEE, 0xEE] = .ok .ret ∧
  decode defaultOpcodes [0x45, 0x00, 0xFF] = .ok (.push 0) ∧
  decode defaultOpcodes [0x46, 0x07, 0xFF] = .ok (.pop 7) ∧
  decode defaultOpcodes [0x47, 0x08, 0xFF] = .ok (.prn 8) ∧
  decode defaultOpcodes [0x50, 0x01, 0xFF] = .ok (.call 1) ∧
  decode defaultOpcodes [0x54, 0x03, 0xFF] = .ok (.jmp 3) ∧
  decode defaultOpcodes [0x55, 0x02, 0xFF] = .ok (.jeq 2) ∧
  decode defaultOpcodes [0x56, 0x0B, 0xFF] = .ok (.jne 11) ∧
  decode defaultOpcodes [0x82, 0x01, 0xC8] = .ok (.ldi 1 200) ∧
  decode defaultOpcodes [0xA0, 0x02, 0x05] = .ok (.add 2 5) ∧
  decode defaultOpcodes [0xA2, 0x05, 0x02] = .ok (.mul 5 2) ∧
  decode defaultOpcodes [0xA7, 0x00, 0x0A] = .ok (.cmp 0 10) ∧
  decode defaultOpcodes [0xA1, 0x00, 0x01] = .error (.unknownOpcode 0xA1)

/-! The step. -/

/-- The bytes of the window decode to an instruction: the step is exactly its execution, nothing around it. -/
def Obligations.StepRunsTheDecodedInstruction : Prop :=
  ∀ (s : State) (i : Instr), s.run = .running → s.pc + 2 < s.cfg.memSize →
    decode s.cfg.opcodes [s.mem.read s.pc, s.mem.read (s.pc + 1), s.mem.read (s.pc + 2)] = .ok i →
    step s = exec i s

/-- A step is taken exactly when Running; from Halted and Faulted there is none (10_state.md,
40_execution_cycle.md). That a Running machine has a step the spec derives from the step in full; that the
model answers Outcome.fault from the final states is its own choice (log 11). -/
def Obligations.OnlyARunningMachineSteps : Prop :=
  (∀ s : State, (∃ t, step s = .next t) ↔ s.run = .running) ∧
  (∀ s : State, s.run = .halted → step s = .fault .halted) ∧
  (∀ (s : State) (f : FaultRecord), s.run = .faulted f → step s = .fault (.faulted f))

/-- R81: the window is read whole before decoding, and the first of its addresses that does not exist raises
AddressingError (D11); otherwise the fetch gives the three bytes. -/
def Obligations.FetchChecksTheWholeWindow : Prop :=
  ∀ s : State, s.run = .running →
    (s.cfg.memSize ≤ s.pc → step s = .next (faultState s .addressing (s.pc : Int))) ∧
    (s.pc < s.cfg.memSize → s.cfg.memSize ≤ s.pc + 1 →
      step s = .next (faultState s .addressing ((s.pc : Int) + 1))) ∧
    (s.pc + 1 < s.cfg.memSize → s.cfg.memSize ≤ s.pc + 2 →
      step s = .next (faultState s .addressing ((s.pc : Int) + 2))) ∧
    (s.pc + 2 < s.cfg.memSize → fetchWindow s =
      .ok { op := s.mem.read s.pc, a := s.mem.read (s.pc + 1), b := s.mem.read (s.pc + 2) })

/-- R82: after a fetch that raised nothing, an opcode that is the value of no mnemonic raises
DecodeError(op, pc), whatever the operand bytes: no operand validation and no execution. -/
def Obligations.UnknownOpcodeRaisesDecodeError : Prop :=
  ∀ s : State, s.run = .running → s.pc + 2 < s.cfg.memSize →
    (∀ k, s.cfg.opcodes.byteOf k ≠ s.mem.read s.pc) →
    step s = .next (faultState s .decode ((s.mem.read s.pc).toNat : Int))

/-- R85: the first register operand of 8 or more raises InvalidRegisterError of it, whether or not it would be
used (D13); HLT and RET have none, and LDI's immediate is never checked. -/
def Obligations.InvalidRegisterOperandIsRaisedFirst : Prop :=
  (∀ (s : State) (a : Byte) (i : Instr), 8 ≤ a.toNat →
    i ∈ [Instr.push a, .pop a, .prn a, .call a, .jmp a, .jeq a, .jne a] →
    exec i s = .next (faultState s .invalidRegister (a.toNat : Int))) ∧
  (∀ (s : State) (a b : Byte) (i : Instr), 8 ≤ a.toNat →
    i ∈ [Instr.ldi a b, .add a b, .mul a b, .cmp a b] →
    exec i s = .next (faultState s .invalidRegister (a.toNat : Int))) ∧
  (∀ (s : State) (a b : Byte) (i : Instr), a.toNat < 8 → 8 ≤ b.toNat →
    i ∈ [Instr.add a b, .mul a b, .cmp a b] →
    exec i s = .next (faultState s .invalidRegister (b.toNat : Int))) ∧
  (∀ (s t : State) (i : Instr), i.wellFormed = true → s.run = .running → exec i s = .next t →
    ∀ f, t.run = .faulted f → f.kind ≠ .invalidRegister)

/-- R166 and R86: a step that raises an error changes nothing but the run state (D14), whose record holds the
pc of the faulting instruction (R161); from the state it leaves there is no step, so no output follows. -/
def Obligations.FaultingStepChangesOnlyTheRunState : Prop :=
  ∀ s t : State, step s = .next t → t.isFaulted →
    ∃ (kind : ErrorKind) (info : Int), t = faultState s kind info ∧
      step t = .fault (.faulted { kind := kind, pc := s.pc, info := info })

/-- R165: a step reports exactly the first error that applies, in the order fetch, decode, operand_a,
operand_b, stack check (D15), and it faults only if one applies. -/
def Obligations.StepReportsTheFirstError : Prop :=
  ∀ s : State, s.run = .running →
    (∀ (kind : ErrorKind) (info : Int), firstError s = some (kind, info) →
      step s = .next (faultState s kind info)) ∧
    (firstError s = none → ∃ t, step s = .next t ∧ ¬ t.isFaulted)

/-- R163: no step raises UnsupportedOperationError (D24). -/
def Obligations.UnsupportedOperationIsNeverRaised : Prop :=
  ∀ (s t : State) (f : FaultRecord), step s = .next t → t.run = .faulted f → f.kind ≠ .unsupportedOperation

/-- Halted is entered only by HLT: the opcode byte at the pc was HLT's. -/
def Obligations.OnlyHltHalts : Prop :=
  ∀ s t : State, step s = .next t → t.run = .halted → s.mem.read s.pc = s.cfg.opcodes.hlt

/-- R87: the next pc of every instruction that completes. -/
def Obligations.PcIsUpdatedAsTabled : Prop :=
  ∀ (i : Instr) (s t : State), exec i s = .next t → ¬ t.isFaulted → t.pc = nextPc i s

/-! The memory contract and the register file. -/

/-- R40: `MEM_SIZE` is 256 by default (D2). An access outside `[0, MEM_SIZE)` raises AddressingError of the
unmasked address; inside, a read gives the cell, and a write changes that cell and nothing else. -/
def Obligations.MemoryContract : Prop :=
  State.reset.cfg.memSize = 256 ∧
  ∀ (s : State) (addr : Int) (v : Byte),
    ((addr < 0 ∨ (s.cfg.memSize : Int) ≤ addr) →
      s.memRead addr = .error { kind := .addressing, info := addr } ∧
      s.memWrite addr v = .error { kind := .addressing, info := addr }) ∧
    (∀ a : Nat, addr = (a : Int) → a < s.cfg.memSize →
      s.memRead addr = .ok (s.mem.read a) ∧
      ∃ t, s.memWrite addr v = .ok t ∧ t.mem.read a = v ∧ SameBytesBut [a] s t ∧
        SameRegsBut [] s t ∧ t.pc = s.pc ∧ t.flags = s.flags ∧ SameRunOutCfg s t)

/-- The register file's contract (10_state.md): an index of 8 or more fails with InvalidRegisterError, every
other names a register, which holds the last value written to it, R7 like the others. -/
def Obligations.RegisterFileContract : Prop :=
  (∀ v : Byte, 8 ≤ v.toNat → regOperand v = .error { kind := .invalidRegister, info := (v.toNat : Int) }) ∧
  (∀ v : Byte, v.toNat < 8 → ∃ r : RegIndex, regOperand v = .ok r ∧ r.val = v.toNat) ∧
  (∀ (s : State) (r q : RegIndex) (v : Byte),
    (s.writeReg r v).readReg q = if q = r then v else s.readReg q)

/-! The instructions, each with its whole frame. -/

/-- R100, ADD. -/
def Obligations.AddStoresTheWrappedSum : Prop :=
  FollowsTemplate .add (fun a b => .add a b) (fun a b => [a, b]) ∧
  ∀ (s : State) (a b : Byte) (i j : RegIndex), a.toNat = i.val → b.toNat = j.val →
    ∃ t, exec (.add a b) s = .next t ∧
      (t.readReg i).toNat = ((s.readReg i).toNat + (s.readReg j).toNat) % 256 ∧
      t.pc = s.pc + 3 ∧ SameRegsBut [i] s t ∧ SameBytesBut [] s t ∧ t.flags = s.flags ∧ SameRunOutCfg s t

/-- R101, MUL. -/
def Obligations.MulStoresTheWrappedProduct : Prop :=
  FollowsTemplate .mul (fun a b => .mul a b) (fun a b => [a, b]) ∧
  ∀ (s : State) (a b : Byte) (i j : RegIndex), a.toNat = i.val → b.toNat = j.val →
    ∃ t, exec (.mul a b) s = .next t ∧
      (t.readReg i).toNat = ((s.readReg i).toNat * (s.readReg j).toNat) % 256 ∧
      t.pc = s.pc + 3 ∧ SameRegsBut [i] s t ∧ SameBytesBut [] s t ∧ t.flags = s.flags ∧ SameRunOutCfg s t

/-- R102, CMP: the unsigned comparison (D4), exactly one flag set, the old flags without effect, repeating it
without effect. -/
def Obligations.CmpSetsExactlyOneFlag : Prop :=
  FollowsTemplate .cmp (fun a b => .cmp a b) (fun a b => [a, b]) ∧
  ∀ (s : State) (a b : Byte) (i j : RegIndex), a.toNat = i.val → b.toNat = j.val →
    ∃ t, exec (.cmp a b) s = .next t ∧
      (t.flags.less = true ↔ (s.readReg i).toNat < (s.readReg j).toNat) ∧
      (t.flags.greater = true ↔ (s.readReg j).toNat < (s.readReg i).toNat) ∧
      (t.flags.equal = true ↔ s.readReg i = s.readReg j) ∧
      t.pc = s.pc + 3 ∧ SameRegsBut [] s t ∧ SameBytesBut [] s t ∧ SameRunOutCfg s t ∧
      ∃ u, exec (.cmp a b) t = .next u ∧ u.flags = t.flags

/-- R120, LDI: every byte is a valid immediate, R7 is set without a range check. -/
def Obligations.LdiLoadsTheImmediate : Prop :=
  FollowsTemplate .ldi (fun a b => .ldi a b) (fun a _ => [a]) ∧
  ∀ (s : State) (a imm : Byte) (i : RegIndex), a.toNat = i.val →
    ∃ t, exec (.ldi a imm) s = .next t ∧ t.readReg i = imm ∧ t.pc = s.pc + 3 ∧
      SameRegsBut [i] s t ∧ SameBytesBut [] s t ∧ t.flags = s.flags ∧ SameRunOutCfg s t

/-- R121, PRN. -/
def Obligations.PrnEmitsTheRegister : Prop :=
  FollowsTemplate .prn (fun a _ => .prn a) (fun a _ => [a]) ∧
  ∀ (s : State) (a : Byte) (i : RegIndex), a.toNat = i.val →
    ∃ t, exec (.prn a) s = .next t ∧ t.out = s.out ++ [s.readReg i] ∧ t.pc = s.pc + 2 ∧
      SameRegsBut [] s t ∧ SameBytesBut [] s t ∧ t.flags = s.flags ∧ t.run = s.run ∧ t.cfg = s.cfg

/-- R130, PUSH: `PUSH R7` stores the decremented stack pointer (D16); a decremented stack pointer outside
memory raises AddressingError of it (D12). -/
def Obligations.PushStoresBelowTheStackPointer : Prop :=
  FollowsTemplate .push (fun a _ => .push a) (fun a _ => [a]) ∧
  ∀ (s : State) (a : Byte) (i : RegIndex), a.toNat = i.val →
    (1 ≤ s.sp → s.sp ≤ s.cfg.memSize →
      ∃ t, exec (.push a) s = .next t ∧ t.sp = s.sp - 1 ∧
        (t.mem.read (s.sp - 1)).toNat = (if i = 7 then s.sp - 1 else (s.readReg i).toNat) ∧
        t.pc = s.pc + 2 ∧ SameRegsBut [7] s t ∧ SameBytesBut [s.sp - 1] s t ∧ t.flags = s.flags ∧
        SameRunOutCfg s t) ∧
    (s.sp = 0 ∨ s.cfg.memSize < s.sp →
      exec (.push a) s = .next (faultState s .addressing ((s.sp : Int) - 1)))

/-- R131, POP: `POP R7` leaves R7 as the popped byte plus 1 (D16); the stack pointer and its successor are
checked, in this order, before anything is written (D12). `MEM_SIZE` ≤ 256 is the constraint of R6. -/
def Obligations.PopLoadsFromTheStackPointer : Prop :=
  FollowsTemplate .pop (fun a _ => .pop a) (fun a _ => [a]) ∧
  ∀ (s : State) (a : Byte) (i : RegIndex), a.toNat = i.val → s.cfg.memSize ≤ 256 →
    (s.sp < s.cfg.memSize → (if i = 7 then (s.mem.read s.sp).toNat else s.sp) + 1 < s.cfg.memSize →
      ∃ t, exec (.pop a) s = .next t ∧ (i ≠ 7 → t.readReg i = s.mem.read s.sp) ∧
        t.sp = (if i = 7 then (s.mem.read s.sp).toNat else s.sp) + 1 ∧
        t.pc = s.pc + 2 ∧ SameRegsBut [i, 7] s t ∧ SameBytesBut [] s t ∧ t.flags = s.flags ∧
        SameRunOutCfg s t) ∧
    (s.cfg.memSize ≤ s.sp → exec (.pop a) s = .next (faultState s .addressing (s.sp : Int))) ∧
    (s.sp < s.cfg.memSize → s.cfg.memSize ≤ (if i = 7 then (s.mem.read s.sp).toNat else s.sp) + 1 →
      exec (.pop a) s = .next (faultState s .addressing
        (((if i = 7 then (s.mem.read s.sp).toNat else s.sp : Nat) : Int) + 1)))

/-- R140, CALL: it pushes the byte `pc + 2` (which fits a byte wherever a fetch reached CALL; 90_conflicts.md
C1) and goes to the register as it stands after the push, for `CALL R7` the decremented stack pointer (D16). -/
def Obligations.CallPushesTheReturnAddress : Prop :=
  FollowsTemplate .call (fun a _ => .call a) (fun a _ => [a]) ∧
  ∀ (s : State) (a : Byte) (i : RegIndex), a.toNat = i.val →
    (1 ≤ s.sp → s.sp ≤ s.cfg.memSize →
      ∃ t, exec (.call a) s = .next t ∧ t.sp = s.sp - 1 ∧
        (s.pc + 2 < 256 → (t.mem.read (s.sp - 1)).toNat = s.pc + 2) ∧
        t.pc = (if i = 7 then s.sp - 1 else (s.readReg i).toNat) ∧
        SameRegsBut [7] s t ∧ SameBytesBut [s.sp - 1] s t ∧ t.flags = s.flags ∧ SameRunOutCfg s t) ∧
    (s.sp = 0 ∨ s.cfg.memSize < s.sp →
      exec (.call a) s = .next (faultState s .addressing ((s.sp : Int) - 1)))

/-- R141, RET. `MEM_SIZE` ≤ 256 is the constraint of R6. -/
def Obligations.RetPopsThePc : Prop :=
  FollowsTemplate .ret (fun _ _ => .ret) (fun _ _ => []) ∧
  ∀ s : State, s.cfg.memSize ≤ 256 →
    (s.sp + 1 < s.cfg.memSize →
      ∃ t, exec .ret s = .next t ∧ t.pc = (s.mem.read s.sp).toNat ∧ t.sp = s.sp + 1 ∧
        SameRegsBut [7] s t ∧ SameBytesBut [] s t ∧ t.flags = s.flags ∧ SameRunOutCfg s t) ∧
    (s.cfg.memSize ≤ s.sp → exec .ret s = .next (faultState s .addressing (s.sp : Int))) ∧
    (s.sp < s.cfg.memSize → s.cfg.memSize ≤ s.sp + 1 →
      exec .ret s = .next (faultState s .addressing ((s.sp : Int) + 1)))

/-- R142, JMP. -/
def Obligations.JmpGoesToTheRegister : Prop :=
  FollowsTemplate .jmp (fun a _ => .jmp a) (fun a _ => [a]) ∧
  ∀ (s : State) (a : Byte) (i : RegIndex), a.toNat = i.val →
    ∃ t, exec (.jmp a) s = .next t ∧ t.pc = (s.readReg i).toNat ∧
      SameRegsBut [] s t ∧ SameBytesBut [] s t ∧ t.flags = s.flags ∧ SameRunOutCfg s t

/-- R143, JEQ: its operand is checked also where it does not jump (D13). -/
def Obligations.JeqJumpsIfEqual : Prop :=
  FollowsTemplate .jeq (fun a _ => .jeq a) (fun a _ => [a]) ∧
  ∀ (s : State) (a : Byte) (i : RegIndex), a.toNat = i.val →
    ∃ t, exec (.jeq a) s = .next t ∧
      (s.flags.equal = true → t.pc = (s.readReg i).toNat) ∧
      (s.flags.equal = false → t.pc = s.pc + 2) ∧
      SameRegsBut [] s t ∧ SameBytesBut [] s t ∧ t.flags = s.flags ∧ SameRunOutCfg s t

/-- R144, JNE. -/
def Obligations.JneJumpsIfNotEqual : Prop :=
  FollowsTemplate .jne (fun a _ => .jne a) (fun a _ => [a]) ∧
  ∀ (s : State) (a : Byte) (i : RegIndex), a.toNat = i.val →
    ∃ t, exec (.jne a) s = .next t ∧
      (s.flags.equal = false → t.pc = (s.readReg i).toNat) ∧
      (s.flags.equal = true → t.pc = s.pc + 2) ∧
      SameRegsBut [] s t ∧ SameBytesBut [] s t ∧ t.flags = s.flags ∧ SameRunOutCfg s t

/-- R145, HLT: from the state it leaves there is no step. -/
def Obligations.HltHalts : Prop :=
  FollowsTemplate .hlt (fun _ _ => .hlt) (fun _ _ => []) ∧
  ∀ s : State, ∃ t, exec .hlt s = .next t ∧ t.run = .halted ∧ t.pc = s.pc + 1 ∧
    SameRegsBut [] s t ∧ SameBytesBut [] s t ∧ t.flags = s.flags ∧ t.out = s.out ∧ t.cfg = s.cfg ∧
    step t = .fault .halted

/-! The stack primitives and the laws built from them. -/

/-- R132: the push primitive with any value expression, which is evaluated after the stack pointer is
written. -/
def Obligations.StackPushPrimitive : Prop :=
  ∀ (s : State) (value : State → Byte),
    (1 ≤ s.sp → s.sp ≤ s.cfg.memSize →
      ∃ t, s.stackPush value = .ok t ∧ t.sp = s.sp - 1 ∧
        t.mem.read (s.sp - 1) = value (s.writeReg 7 (BitVec.ofNat 8 (s.sp - 1))) ∧
        SameRegsBut [7] s t ∧ SameBytesBut [s.sp - 1] s t ∧ t.pc = s.pc ∧ t.flags = s.flags ∧
        SameRunOutCfg s t) ∧
    (s.sp = 0 ∨ s.cfg.memSize < s.sp →
      s.stackPush value = .error { kind := .addressing, info := (s.sp : Int) - 1 })

/-- R133: the pop primitive into a register other than R7, into R7, and into the pc. `MEM_SIZE` ≤ 256 is the
constraint of R6. -/
def Obligations.StackPopPrimitive : Prop :=
  ∀ s : State, s.cfg.memSize ≤ 256 →
    (s.cfg.memSize ≤ s.sp → ∀ d : PopDest,
      s.stackPop d = .error { kind := .addressing, info := (s.sp : Int) }) ∧
    (s.sp < s.cfg.memSize → s.cfg.memSize ≤ s.sp + 1 → ∀ d : PopDest, d ≠ .reg 7 →
      s.stackPop d = .error { kind := .addressing, info := (s.sp : Int) + 1 }) ∧
    (s.sp + 1 < s.cfg.memSize → ∀ r : RegIndex, r ≠ 7 →
      ∃ t, s.stackPop (.reg r) = .ok t ∧ t.readReg r = s.mem.read s.sp ∧ t.sp = s.sp + 1 ∧
        SameRegsBut [r, 7] s t ∧ SameBytesBut [] s t ∧ t.pc = s.pc ∧ t.flags = s.flags ∧ SameRunOutCfg s t) ∧
    (s.sp + 1 < s.cfg.memSize →
      ∃ t, s.stackPop .pc = .ok t ∧ t.pc = (s.mem.read s.sp).toNat ∧ t.sp = s.sp + 1 ∧
        SameRegsBut [7] s t ∧ SameBytesBut [] s t ∧ t.flags = s.flags ∧ SameRunOutCfg s t) ∧
    (s.sp < s.cfg.memSize → s.cfg.memSize ≤ (s.mem.read s.sp).toNat + 1 →
      s.stackPop (.reg 7) = .error { kind := .addressing, info := ((s.mem.read s.sp).toNat : Int) + 1 }) ∧
    (s.sp < s.cfg.memSize → (s.mem.read s.sp).toNat + 1 < s.cfg.memSize →
      ∃ t, s.stackPop (.reg 7) = .ok t ∧ t.sp = (s.mem.read s.sp).toNat + 1 ∧
        SameRegsBut [7] s t ∧ SameBytesBut [] s t ∧ t.pc = s.pc ∧ t.flags = s.flags ∧ SameRunOutCfg s t)

/-- The stack law of 43_stack.md, which the spec derives: PUSH then POP copies the register and restores the
stack pointer, the pushed byte stays in memory, and two values pop in the reverse order of their pushes. -/
def Obligations.PopGivesBackWhatPushStored : Prop :=
  (∀ (s : State) (a b : Byte) (r q : RegIndex), a.toNat = r.val → b.toNat = q.val → r ≠ 7 → q ≠ 7 →
    s.cfg.memSize ≤ 256 → 1 ≤ s.sp → s.sp < s.cfg.memSize →
    ∃ t u, exec (.push a) s = .next t ∧ exec (.pop b) t = .next u ∧
      u.readReg q = s.readReg r ∧ u.sp = s.sp ∧ SameRegsBut [q] s u ∧
      u.mem.read (s.sp - 1) = s.readReg r ∧ SameBytesBut [s.sp - 1] s u) ∧
  (∀ (s : State) (a b : Byte) (r q : RegIndex), a.toNat = r.val → b.toNat = q.val → r ≠ 7 → q ≠ 7 → r ≠ q →
    s.cfg.memSize ≤ 256 → 2 ≤ s.sp → s.sp < s.cfg.memSize →
    ∃ t u v w, exec (.push a) s = .next t ∧ exec (.push b) t = .next u ∧ exec (.pop a) u = .next v ∧
      exec (.pop b) v = .next w ∧ w.readReg r = s.readReg q ∧ w.readReg q = s.readReg r ∧ w.sp = s.sp)

/-- The call law of 44_control_transfer.md, which the spec derives: a RET that finds the stack pointer and the
top of the stack as the CALL at `p` left them goes to `p + 2` and restores the stack pointer. -/
def Obligations.RetComesBackAfterTheCall : Prop :=
  ∀ (s : State) (a : Byte) (i : RegIndex), a.toNat = i.val → s.cfg.valid = true →
    s.pc + 2 < s.cfg.memSize → 1 ≤ s.sp → s.sp < s.cfg.memSize →
    ∃ t, exec (.call a) s = .next t ∧
      ∀ u : State, u.cfg = s.cfg → u.sp = t.sp → u.mem.read u.sp = t.mem.read t.sp →
        ∃ v, exec .ret u = .next v ∧ v.pc = s.pc + 2 ∧ v.sp = s.sp

/-! Whole-machine rules. -/

/-- Only Compare writes the flags (10_state.md): afterwards exactly one of L, G, E is set. -/
def Obligations.OnlyCompareWritesTheFlags : Prop :=
  ∀ (i : Instr) (s t : State), exec i s = .next t →
    t.flags = s.flags ∨
    ((∃ a b, i = .cmp a b) ∧
      (t.flags = { less := true, greater := false, equal := false } ∨
       t.flags = { less := false, greater := true, equal := false } ∨
       t.flags = { less := false, greater := false, equal := true }))

/-- Only JEQ and JNE read a flag: with other flags every other instruction does the same, and its flags are
those given or, for Compare, those it computes. -/
def Obligations.OnlyConditionalJumpsReadTheFlags : Prop :=
  ∀ (i : Instr) (s t : State) (f : Flags), i.mnemonic ≠ .jeq → i.mnemonic ≠ .jne → exec i s = .next t →
    ∃ t', exec i { s with flags := f } = .next t' ∧ { t' with flags := t.flags } = t ∧
      (t'.flags = f ∨ t'.flags = t.flags)

/-- L and G are read by no instruction: changing them changes nothing but them, at every step. The spec
derives it. -/
def Obligations.LessAndGreaterAreNeverRead : Prop :=
  ∀ (s t : State) (l g : Bool), step s = .next t →
    ∃ t', step { s with flags := { less := l, greater := g, equal := s.flags.equal } } = .next t' ∧
      t'.flags.equal = t.flags.equal ∧ { t' with flags := t.flags } = t

/-- Every register an instruction is not tabled to write keeps its value (10_state.md, the read and write
table, which the spec derives). -/
def Obligations.OnlyTabledRegistersAreWritten : Prop :=
  ∀ (i : Instr) (s t : State), exec i s = .next t →
    ∀ r : RegIndex, r.val ∉ writtenRegs i → t.readReg r = s.readReg r

/-- Registers an instruction is not tabled to read have no influence: two states that differ only in such
registers run to states that agree on everything else, and each register either gets one value in both or
stays as it was in each. -/
def Obligations.OnlyTabledRegistersAreRead : Prop :=
  ∀ (i : Instr) (s s' t : State), s'.pc = s.pc → s'.flags = s.flags → s'.mem = s.mem → s'.run = s.run →
    s'.out = s.out → s'.cfg = s.cfg →
    (∀ r : RegIndex, r.val ∈ readRegs i → s'.readReg r = s.readReg r) → exec i s = .next t →
    ∃ t', exec i s' = .next t' ∧ t'.pc = t.pc ∧ t'.flags = t.flags ∧ t'.mem = t.mem ∧ t'.run = t.run ∧
      t'.out = t.out ∧ t'.cfg = t.cfg ∧
      ∀ r : RegIndex, t'.readReg r = t.readReg r ∨
        (t'.readReg r = s'.readReg r ∧ t.readReg r = s.readReg r)

/-- Only PUSH and CALL store, and only one byte, at the decremented stack pointer; an instruction other than
PUSH, POP, CALL and RET has nothing to do with memory beyond its fetch. -/
def Obligations.OnlyTheStackInstructionsReachMemory : Prop :=
  (∀ (i : Instr) (s t : State), exec i s = .next t → SameBytesBut (storedAt i s) s t) ∧
  (∀ (i : Instr) (s t : State) (m : Memory), usesStack i = false → exec i s = .next t →
    exec i { s with mem := m } = .next { t with mem := m })

/-- A fetch reads memory as the instructions before it left it: after any instruction that completes, the
window fetched anywhere holds its stored byte and, elsewhere, the bytes from before it. The spec derives
it. -/
def Obligations.StoredBytesAreSeenByLaterFetches : Prop :=
  ∀ (i : Instr) (s t : State) (p : Nat), exec i s = .next t → p + 2 < s.cfg.memSize →
    ∃ w, fetchWindow { t with pc := p } = .ok w ∧
      w.op = t.mem.read p ∧ w.a = t.mem.read (p + 1) ∧ w.b = t.mem.read (p + 2) ∧
      (p ∉ storedAt i s → w.op = s.mem.read p) ∧
      (p + 1 ∉ storedAt i s → w.a = s.mem.read (p + 1)) ∧
      (p + 2 ∉ storedAt i s → w.b = s.mem.read (p + 2))

/-- Only PRN emits, one byte, the register's (10_state.md); nothing emitted is ever taken back. -/
def Obligations.OnlyPrnEmits : Prop :=
  ∀ (i : Instr) (s t : State), exec i s = .next t →
    t.out = s.out ∨ ∃ (a : Byte) (r : RegIndex), i = .prn a ∧ a.toNat = r.val ∧
      t.out = s.out ++ [s.readReg r]

/-- A target is a byte, not checked where the pc is set (44_control_transfer.md): with valid register operands
and no stack error a control transfer completes with its tabled pc, whatever that is. One that completes
leaves the old pc plus 2 or a pc of at most 255, and if the window there leaves memory, the next step raises
AddressingError with that pc in its record. -/
def Obligations.TargetsAreCheckedAtTheNextFetch : Prop :=
  (∀ (i : Instr) (s : State), i.mnemonic ∈ [Mnemonic.call, .ret, .jmp, .jeq, .jne] → i.wellFormed = true →
    stackError i s = none → ∃ t, exec i s = .next t ∧ t.run = s.run ∧ t.pc = nextPc i s) ∧
  (∀ (i : Instr) (s t : State), i.mnemonic ∈ [Mnemonic.call, .ret, .jmp, .jeq, .jne] → s.run = .running →
    exec i s = .next t → t.run = .running →
    (t.pc = s.pc + 2 ∨ t.pc ≤ 255) ∧
    (t.cfg.memSize ≤ t.pc + 2 →
      step t = .next (faultState t .addressing ((max t.pc t.cfg.memSize : Nat) : Int))))

/-- Changing the opcode map, or `SP_INIT`, changes no instruction's execution: the map matters to decoding
alone (30_encoding.md), `SP_INIT` to reset alone. -/
def Obligations.OpcodeMapMattersToDecodingAlone : Prop :=
  ∀ (i : Instr) (s t : State) (m : OpcodeMap) (v : Byte), exec i s = .next t →
    exec i { s with cfg := { s.cfg with opcodes := m, spInit := v } } =
      .next { t with cfg := { t.cfg with opcodes := m, spInit := v } }

/-! The load interface. -/

/-- Loading places the image's bytes from address 0 in order and touches no other state; an image longer than
memory is refused (D20). -/
def Obligations.LoadPlacesTheImage : Prop :=
  (∀ (image : List Byte) (s : State), image.length ≤ s.cfg.memSize →
    ∃ t, loadImage image s = .ok t ∧
      (∀ (k : Nat) (h : k < image.length), t.mem.read k = image[k]) ∧
      (∀ k : Nat, image.length ≤ k → t.mem.read k = s.mem.read k) ∧
      SameRegsBut [] s t ∧ t.pc = s.pc ∧ t.flags = s.flags ∧ SameRunOutCfg s t) ∧
  (∀ (image : List Byte) (s : State), s.cfg.memSize < image.length →
    loadImage image s = .error .imageTooLong)

/-- The image text of 70_reset_and_hazards.md is read line by line, the last line with or without its line
feed; a token that is no binary literal of value at most 255 fails the load, and so does a missing source.
White space and the line end are the model's reading (log 19). -/
def Obligations.ImageTextIsReadLineByLine : Prop :=
  (∀ (ls : List (List Char)) (bs : List Byte), LinesGive ls bs →
    parseSource (textOf ls) = .ok bs ∧ parseSource (textOf ls).dropLast = .ok bs) ∧
  (∀ (ls : List (List Char)) (bs : List Byte) (bad rest : List Char), LinesGive ls bs → BadLine bad →
    parseSource (textOf ls ++ bad ++ '\n' :: rest) = .error .badToken) ∧
  (∀ c : Config, startRun c none = .error .sourceMissing) ∧
  (∀ (c : Config) (text : List Char) (bs : List Byte), parseSource text = .ok bs →
    startRun c (some text) = loadImage bs (State.resetWith c))
end

