-- ==== Sys2Proof/Laws/Decode.lean ====
section
/-! SUPPORT. Laws of the opcode map and the decoder. -/

namespace Sys2Proof

theorem Mnemonic.mem_all (k : Mnemonic) : k ∈ Mnemonic.all := by cases k <;> decide

theorem Mnemonic.all_nodup : Mnemonic.all.Nodup := by decide

theorem Mnemonic.instr_mnemonic (k : Mnemonic) (a b : Byte) : (k.instr a b).mnemonic = k := by cases k <;> rfl

/-- Selection is "exactly one" (R66). -/
theorem OpcodeMap.select_eq_some (m : OpcodeMap) (op : Byte) (k : Mnemonic) :
    m.select op = some k ↔ m.byteOf k = op ∧ ∀ k', m.byteOf k' = op → k' = k := by
  unfold OpcodeMap.select
  have hmem : ∀ k', k' ∈ Mnemonic.all.filter (fun k => m.byteOf k == op) ↔ m.byteOf k' = op := by
    intro k'
    simp [k'.mem_all]
  have hnd : (Mnemonic.all.filter (fun k => m.byteOf k == op)).Nodup := Mnemonic.all_nodup.filter _
  revert hmem hnd
  generalize Mnemonic.all.filter (fun k => m.byteOf k == op) = l
  intro hmem hnd
  constructor
  · intro h
    split at h
    · next k0 =>
      obtain rfl : k0 = k := by simpa using h
      exact ⟨(hmem k0).mp (by simp), fun k' hk' => by simpa using (hmem k').mpr hk'⟩
    · simp at h
  · rintro ⟨hk, huniq⟩
    match l, hmem, hnd with
    | [], hmem, _ => simpa using (hmem k).mpr hk
    | [k0], hmem, _ =>
      obtain rfl : k0 = k := huniq k0 ((hmem k0).mp (by simp))
      rfl
    | k0 :: k1 :: r, hmem, hnd =>
      have h0 := huniq k0 ((hmem k0).mp (by simp))
      have h1 := huniq k1 ((hmem k1).mp (by simp))
      simp [h0, h1] at hnd

/-- In a map of distinct bytes two mnemonics never share one (R64). -/
theorem OpcodeMap.byteOf_inj {m : OpcodeMap} (h : m.distinct = true) {k k' : Mnemonic}
    (hk : m.byteOf k = m.byteOf k') : k = k' := by
  have hnd : (Mnemonic.all.map m.byteOf).Nodup := of_decide_eq_true h
  exact List.inj_on_of_nodup_map hnd k.mem_all k'.mem_all hk

/-- In a map of distinct bytes a mnemonic's byte selects it (R66). -/
theorem OpcodeMap.select_byteOf {m : OpcodeMap} (h : m.distinct = true) (k : Mnemonic) :
    m.select (m.byteOf k) = some k :=
  (m.select_eq_some _ k).mpr ⟨rfl, fun _ hk' => OpcodeMap.byteOf_inj h hk'⟩

/-- What decoding a window can answer. -/
theorem decodeWindow_ok {m : OpcodeMap} {op a b : Byte} {i : Instr} :
    decodeWindow m op a b = .ok i ↔ ∃ k, m.select op = some k ∧ i = k.instr a b := by
  unfold decodeWindow
  cases h : m.select op with
  | none => simp
  | some k => simp [eq_comm]

theorem decodeWindow_error {m : OpcodeMap} {op a b : Byte} {r : DecodeReject} :
    decodeWindow m op a b = .error r ↔ m.select op = none ∧ r = .unknownOpcode op := by
  unfold decodeWindow
  cases h : m.select op with
  | none => simp [eq_comm]
  | some k => simp

end Sys2Proof
end

