-- ==== Sys2Proof/Laws/Memory.lean ====
section
/-! SUPPORT. The laws of the memory array: a read after a write, every other cell unchanged, and the canonical
form kept by every operation. -/

namespace Sys2Proof.Machine

@[simp] theorem Memory.read_nil (a : Nat) : Memory.read [] a = unwrittenByte := rfl

theorem Memory.read_cons (k : Nat) (v : Byte) (m : Memory) (a : Nat) :
    Memory.read ((k, v) :: m) a = if k = a then v else Memory.read m a := rfl

theorem Memory.erase_cons (k : Nat) (v : Byte) (m : Memory) (a : Nat) :
    Memory.erase ((k, v) :: m) a = if k = a then m.erase a else (k, v) :: m.erase a := by
  by_cases h : k = a <;> simp [Memory.erase, h]

theorem Memory.read_erase_same (m : Memory) (a : Nat) : (m.erase a).read a = unwrittenByte := by
  induction m with
  | nil => rfl
  | cons c m ih =>
    obtain ⟨k, v⟩ := c
    by_cases h : k = a <;> simp [Memory.erase_cons, Memory.read_cons, h, ih]

theorem Memory.read_erase_ne (m : Memory) {a b : Nat} (h : b ≠ a) : (m.erase a).read b = m.read b := by
  induction m with
  | nil => rfl
  | cons c m ih =>
    obtain ⟨k, v⟩ := c
    by_cases hk : k = a
    · simp [Memory.erase_cons, Memory.read_cons, hk, Ne.symm h, ih]
    · simp [Memory.erase_cons, Memory.read_cons, hk, ih]

/-- Reading after an insertion into a memory that lists no entry for the cell. -/
theorem Memory.read_insert (m : Memory) (a b : Nat) (v : Byte) (hm : ∀ c ∈ m, c.1 ≠ a) :
    (m.insert a v).read b = if a = b then v else m.read b := by
  induction m with
  | nil => simp [Memory.insert, Memory.read_cons]
  | cons c m ih =>
    obtain ⟨k, w⟩ := c
    have hk : k ≠ a := hm (k, w) (by simp)
    have ih' := ih (fun c hc => hm c (by simp [hc]))
    by_cases h : a < k
    · simp [Memory.insert, h, Memory.read_cons]
    · simp only [Memory.insert, h, if_false, Memory.read_cons, ih']
      by_cases hb : k = b
      · subst hb
        simp [Ne.symm hk]
      · simp [hb]

theorem Memory.not_mem_erase (m : Memory) (a : Nat) : ∀ c ∈ m.erase a, c.1 ≠ a := by
  simp [Memory.erase]

/-- A read after a write (R40, R48): the written cell gives the byte written, every other cell what it gave
before. -/
theorem Memory.read_write (m : Memory) (a b : Nat) (v : Byte) :
    (m.write a v).read b = if b = a then v else m.read b := by
  unfold Memory.write
  by_cases h : b = a
  · subst h
    split
    · next hv => simp [Memory.read_erase_same, hv]
    · simp [Memory.read_insert _ _ _ _ (m.not_mem_erase b)]
  · split
    · simp [Memory.read_erase_ne m h]
    · simp [Memory.read_insert _ _ _ _ (m.not_mem_erase a), Memory.read_erase_ne m h, Ne.symm h]

@[simp] theorem Memory.read_write_same (m : Memory) (a : Nat) (v : Byte) : (m.write a v).read a = v := by
  simp [Memory.read_write]

theorem Memory.read_write_ne (m : Memory) {a b : Nat} (v : Byte) (h : b ≠ a) :
    (m.write a v).read b = m.read b := by simp [Memory.read_write, h]

theorem Memory.wfFrom_mono {m : Memory} : ∀ {lo hi : Nat}, lo ≤ hi → m.wfFrom hi = true → m.wfFrom lo = true := by
  intro lo hi h hm
  cases m with
  | nil => rfl
  | cons c m =>
    obtain ⟨k, v⟩ := c
    simp only [Memory.wfFrom, Bool.and_eq_true, decide_eq_true_eq] at hm ⊢
    exact ⟨⟨by omega, hm.1.2⟩, hm.2⟩

theorem Memory.wfFrom_erase (m : Memory) (a : Nat) :
    ∀ lo, m.wfFrom lo = true → (m.erase a).wfFrom lo = true := by
  induction m with
  | nil => exact fun _ h => h
  | cons c m ih =>
    obtain ⟨k, v⟩ := c
    intro lo h
    simp only [Memory.wfFrom, Bool.and_eq_true, decide_eq_true_eq] at h
    by_cases hk : k = a
    · simpa [Memory.erase_cons, hk] using Memory.wfFrom_mono (by omega : lo ≤ k + 1) (ih _ h.2)
    · simp [Memory.erase_cons, hk, Memory.wfFrom, h.1.1, h.1.2, ih _ h.2]

theorem Memory.wfFrom_insert (m : Memory) (a : Nat) (v : Byte) (hv : v ≠ unwrittenByte)
    (hm : ∀ c ∈ m, c.1 ≠ a) : ∀ lo, lo ≤ a → m.wfFrom lo = true → (m.insert a v).wfFrom lo = true := by
  induction m with
  | nil => intro lo hlo _; simp [Memory.insert, Memory.wfFrom, hlo, hv]
  | cons c m ih =>
    obtain ⟨k, w⟩ := c
    intro lo hlo h
    have hk : k ≠ a := hm (k, w) (by simp)
    simp only [Memory.wfFrom, Bool.and_eq_true, decide_eq_true_eq] at h
    by_cases hak : a < k
    · simp only [Memory.insert, hak, if_true, Memory.wfFrom, Bool.and_eq_true, decide_eq_true_eq]
      exact ⟨⟨hlo, hv⟩, ⟨by omega, h.1.2⟩, h.2⟩
    · simp only [Memory.insert, hak, if_false, Memory.wfFrom, Bool.and_eq_true, decide_eq_true_eq]
      exact ⟨h.1, ih (fun c hc => hm c (by simp [hc])) _ (by omega) h.2⟩

/-- A write keeps the canonical form. -/
theorem Memory.wf_write (m : Memory) (a : Nat) (v : Byte) (h : m.wf = true) : (m.write a v).wf = true := by
  have he : (m.erase a).wfFrom 0 = true := m.wfFrom_erase a 0 h
  unfold Memory.write Memory.wf
  split
  · exact he
  · next hv => exact Memory.wfFrom_insert _ _ _ hv (m.not_mem_erase a) 0 (Nat.zero_le _) he

theorem Memory.mem_insert {m : Memory} {a : Nat} {v : Byte} {c : Host.Cell} (h : c ∈ m.insert a v) :
    c = (a, v) ∨ c ∈ m := by
  induction m with
  | nil => simpa [Memory.insert] using h
  | cons d m ih =>
    obtain ⟨k, w⟩ := d
    by_cases hak : a < k
    · simpa [Memory.insert, hak] using h
    · simp only [Memory.insert, hak, if_false, List.mem_cons] at h
      rcases h with rfl | h
      · simp
      · rcases ih h with rfl | h <;> simp_all

/-- A write to an existing cell lists only existing cells. -/
theorem Memory.below_write (n : Nat) (m : Memory) (a : Nat) (v : Byte) (ha : a < n)
    (h : m.below n = true) : (m.write a v).below n = true := by
  have he : ∀ c ∈ m.erase a, c.1 < n := by
    intro c hc
    have hc' : c ∈ m := (List.mem_filter.mp hc).1
    simpa using List.all_eq_true.mp h c hc'
  unfold Memory.write
  refine List.all_eq_true.mpr (fun c hc => ?_)
  split at hc
  · simpa using he c hc
  · rcases Memory.mem_insert hc with rfl | hc
    · simpa using ha
    · simpa using he c hc

theorem Memory.wf_writeAll (bytes : List Byte) :
    ∀ (m : Memory) (a : Nat), m.wf = true → (m.writeAll a bytes).wf = true := by
  induction bytes with
  | nil => exact fun _ _ h => h
  | cons v vs ih => exact fun m a h => ih _ _ (m.wf_write a v h)

theorem Memory.below_writeAll (n : Nat) (bytes : List Byte) :
    ∀ (m : Memory) (a : Nat), a + bytes.length ≤ n → m.below n = true → (m.writeAll a bytes).below n = true := by
  induction bytes with
  | nil => exact fun _ _ _ h => h
  | cons v vs ih =>
    intro m a hl h
    simp only [List.length_cons] at hl
    exact ih _ _ (by omega) (Memory.below_write n m a v (by omega) h)

/-- Writing bytes in order leaves every cell below the first and from the end on as it was. -/
theorem Memory.read_writeAll_outside (bytes : List Byte) :
    ∀ (m : Memory) (a b : Nat), b < a ∨ a + bytes.length ≤ b → (m.writeAll a bytes).read b = m.read b := by
  induction bytes with
  | nil => exact fun _ _ _ _ => rfl
  | cons v vs ih =>
    intro m a b h
    simp only [List.length_cons] at h
    rw [Memory.writeAll, ih _ _ _ (by omega), Memory.read_write_ne m v (by omega)]

end Sys2Proof.Machine
end

