-- ==== Sys2Proof/Laws/State.lean ====
section
/-! SUPPORT. One lemma per field per update of State, and reading a register after writing one. -/

namespace Sys2Proof.Machine

variable (s : State) (i j : RegIndex) (v : Byte) (n : Nat) (f : Flags) (e : CoreError)

@[simp] theorem State.writeReg_pc : (s.writeReg i v).pc = s.pc := rfl
@[simp] theorem State.writeReg_flags : (s.writeReg i v).flags = s.flags := rfl
@[simp] theorem State.writeReg_mem : (s.writeReg i v).mem = s.mem := rfl
@[simp] theorem State.writeReg_run : (s.writeReg i v).run = s.run := rfl
@[simp] theorem State.writeReg_out : (s.writeReg i v).out = s.out := rfl
@[simp] theorem State.writeReg_cfg : (s.writeReg i v).cfg = s.cfg := rfl

@[simp] theorem State.setPc_reg : (s.setPc n).reg = s.reg := rfl
@[simp] theorem State.setPc_pc : (s.setPc n).pc = n := rfl
@[simp] theorem State.setPc_flags : (s.setPc n).flags = s.flags := rfl
@[simp] theorem State.setPc_mem : (s.setPc n).mem = s.mem := rfl
@[simp] theorem State.setPc_run : (s.setPc n).run = s.run := rfl
@[simp] theorem State.setPc_out : (s.setPc n).out = s.out := rfl
@[simp] theorem State.setPc_cfg : (s.setPc n).cfg = s.cfg := rfl

@[simp] theorem State.setFlags_reg : (s.setFlags f).reg = s.reg := rfl
@[simp] theorem State.setFlags_pc : (s.setFlags f).pc = s.pc := rfl
@[simp] theorem State.setFlags_flags : (s.setFlags f).flags = f := rfl
@[simp] theorem State.setFlags_mem : (s.setFlags f).mem = s.mem := rfl
@[simp] theorem State.setFlags_run : (s.setFlags f).run = s.run := rfl
@[simp] theorem State.setFlags_out : (s.setFlags f).out = s.out := rfl
@[simp] theorem State.setFlags_cfg : (s.setFlags f).cfg = s.cfg := rfl

@[simp] theorem State.emit_reg : (s.emit v).reg = s.reg := rfl
@[simp] theorem State.emit_pc : (s.emit v).pc = s.pc := rfl
@[simp] theorem State.emit_flags : (s.emit v).flags = s.flags := rfl
@[simp] theorem State.emit_mem : (s.emit v).mem = s.mem := rfl
@[simp] theorem State.emit_run : (s.emit v).run = s.run := rfl
@[simp] theorem State.emit_out : (s.emit v).out = s.out ++ [v] := rfl
@[simp] theorem State.emit_cfg : (s.emit v).cfg = s.cfg := rfl

@[simp] theorem State.halt_reg : s.halt.reg = s.reg := rfl
@[simp] theorem State.halt_pc : s.halt.pc = s.pc := rfl
@[simp] theorem State.halt_flags : s.halt.flags = s.flags := rfl
@[simp] theorem State.halt_mem : s.halt.mem = s.mem := rfl
@[simp] theorem State.halt_run : s.halt.run = .halted := rfl
@[simp] theorem State.halt_out : s.halt.out = s.out := rfl
@[simp] theorem State.halt_cfg : s.halt.cfg = s.cfg := rfl

@[simp] theorem State.raise_reg : (s.raise e).reg = s.reg := rfl
@[simp] theorem State.raise_pc : (s.raise e).pc = s.pc := rfl
@[simp] theorem State.raise_flags : (s.raise e).flags = s.flags := rfl
@[simp] theorem State.raise_mem : (s.raise e).mem = s.mem := rfl
@[simp] theorem State.raise_run :
    (s.raise e).run = .faulted { kind := e.kind, pc := s.pc, info := e.info } := rfl
@[simp] theorem State.raise_out : (s.raise e).out = s.out := rfl
@[simp] theorem State.raise_cfg : (s.raise e).cfg = s.cfg := rfl

/-- A register holds the last value written to it, and a write leaves the others alone (R21). -/
theorem State.readReg_writeReg : (s.writeReg i v).readReg j = if j = i then v else s.readReg j := by
  simp only [State.readReg, State.writeReg, Vector.get_eq_getElem, Vector.getElem_set]
  by_cases h : j = i
  · simp [h]
  · have : ¬ (i : Nat) = (j : Nat) := fun h' => h (Fin.ext h'.symm)
    simp [h, this]

@[simp] theorem State.readReg_writeReg_same : (s.writeReg i v).readReg i = v := by
  simp [State.readReg_writeReg]

theorem State.readReg_writeReg_ne (h : j ≠ i) : (s.writeReg i v).readReg j = s.readReg j := by
  simp [State.readReg_writeReg, h]

@[simp] theorem State.setPc_readReg : (s.setPc n).readReg j = s.readReg j := rfl
@[simp] theorem State.setFlags_readReg : (s.setFlags f).readReg j = s.readReg j := rfl
@[simp] theorem State.emit_readReg : (s.emit v).readReg j = s.readReg j := rfl
@[simp] theorem State.halt_readReg : s.halt.readReg j = s.readReg j := rfl
@[simp] theorem State.raise_readReg : (s.raise e).readReg j = s.readReg j := rfl

@[simp] theorem State.withMem_readReg (m : Memory) : ({ s with mem := m } : State).readReg j = s.readReg j := rfl
@[simp] theorem State.withRun_readReg (r : RunState) : ({ s with run := r } : State).readReg j = s.readReg j := rfl
@[simp] theorem State.withFlags_readReg : ({ s with flags := f } : State).readReg j = s.readReg j := rfl
@[simp] theorem State.withCfg_readReg (c : Config) : ({ s with cfg := c } : State).readReg j = s.readReg j := rfl

end Sys2Proof.Machine
end

