-- ==== Sys2Proof/Laws/Ops.lean ====
section
/-! SUPPORT. One lemma for each shared operation: everything it can answer. -/

namespace Sys2Proof.Machine

@[simp] theorem commit_ok (s t : State) : commit s (.ok t) = .next t := rfl
@[simp] theorem commit_error (s : State) (e : CoreError) : commit s (.error e) = .next (s.raise e) := rfl

/-- An instruction that ends in `commit` always answers a next state: what it committed, or the fault state
of what it raised (R86). -/
theorem commit_next {s t : State} {r : Except CoreError State} (h : commit s r = .next t) :
    r = .ok t ∨ ∃ e, r = .error e ∧ t = s.raise e := by
  cases r with
  | ok u => exact .inl (by simpa using h)
  | error e => exact .inr ⟨e, rfl, by simpa using h.symm⟩

theorem checkAddress_of_lt {s : State} {a : Nat} (h : a < s.cfg.memSize) :
    s.checkAddress (a : Int) = .ok a := by
  simp [State.checkAddress, h]

theorem checkAddress_of_not {s : State} {addr : Int} (h : ¬ (0 ≤ addr ∧ addr < (s.cfg.memSize : Int))) :
    s.checkAddress addr = .error { kind := .addressing, info := addr } := by
  simp [State.checkAddress, h]

theorem checkAddress_ok {s : State} {addr : Int} {a : Nat} :
    s.checkAddress addr = .ok a ↔ addr = (a : Int) ∧ a < s.cfg.memSize := by
  unfold State.checkAddress
  split
  · next h =>
    simp only [Except.ok.injEq]
    omega
  · next h =>
    simp only [reduceCtorEq, false_iff]
    omega

theorem checkAddress_error {s : State} {addr : Int} {e : CoreError} :
    s.checkAddress addr = .error e ↔
      e = { kind := .addressing, info := addr } ∧ (addr < 0 ∨ (s.cfg.memSize : Int) ≤ addr) := by
  unfold State.checkAddress
  split
  · next h =>
    simp only [reduceCtorEq, false_iff]
    omega
  · next h =>
    simp only [Except.error.injEq, eq_comm (b := e)]
    constructor
    · exact fun he => ⟨he, by omega⟩
    · exact fun he => he.1

theorem memRead_ok {s : State} {addr : Int} {v : Byte} :
    s.memRead addr = .ok v ↔ ∃ a : Nat, addr = (a : Int) ∧ a < s.cfg.memSize ∧ v = s.mem.read a := by
  unfold State.memRead
  cases h : s.checkAddress addr with
  | ok a =>
    have ha := checkAddress_ok.mp h
    constructor
    · intro hv
      exact ⟨a, ha.1, ha.2, by simpa using hv.symm⟩
    · rintro ⟨b, hb, -, rfl⟩
      obtain rfl : b = a := by omega
      rfl
  | error e =>
    have he := checkAddress_error.mp h
    simp only [reduceCtorEq, false_iff, not_exists]
    rintro b ⟨hb, hlt, -⟩
    omega

theorem memRead_of_lt {s : State} {a : Nat} (h : a < s.cfg.memSize) :
    s.memRead (a : Int) = .ok (s.mem.read a) := memRead_ok.mpr ⟨a, rfl, h, rfl⟩

theorem memRead_error {s : State} {addr : Int} {e : CoreError} :
    s.memRead addr = .error e ↔
      e = { kind := .addressing, info := addr } ∧ (addr < 0 ∨ (s.cfg.memSize : Int) ≤ addr) := by
  rw [← checkAddress_error]
  unfold State.memRead
  cases s.checkAddress addr <;> simp

theorem memWrite_of_lt {s : State} {a : Nat} {v : Byte} (h : a < s.cfg.memSize) :
    s.memWrite (a : Int) v = .ok { s with mem := s.mem.write a v } := by
  simp [State.memWrite, checkAddress_of_lt h]

/-- The state after a push that raised nothing (R132). -/
def pushed (s : State) (value : State → Byte) : State :=
  let a := (s.readReg spIndex).toNat - 1
  let s1 := s.writeReg spIndex (BitVec.ofNat 8 a)
  { s1 with mem := s1.mem.write a (value s1) }

/-- StackPush (R132) where the decremented stack pointer exists: the pushed state. -/
theorem stackPush_of_room {s : State} (value : State → Byte) (h1 : 1 ≤ (s.readReg spIndex).toNat)
    (h2 : (s.readReg spIndex).toNat ≤ s.cfg.memSize) : s.stackPush value = .ok (pushed s value) := by
  have hsp : ((s.readReg spIndex).toNat : Int) - 1 = (((s.readReg spIndex).toNat - 1 : Nat) : Int) := by omega
  simp only [State.stackPush, hsp, checkAddress_of_lt (s := s) (a := (s.readReg spIndex).toNat - 1) (by omega)]
  exact memWrite_of_lt (show (s.readReg spIndex).toNat - 1 < s.cfg.memSize by omega)

/-- StackPush (R132) where the decremented stack pointer leaves memory: AddressingError of it. -/
theorem stackPush_of_no_room {s : State} (value : State → Byte)
    (h : (s.readReg spIndex).toNat = 0 ∨ s.cfg.memSize < (s.readReg spIndex).toNat) :
    s.stackPush value = .error { kind := .addressing, info := ((s.readReg spIndex).toNat : Int) - 1 } := by
  simp only [State.stackPush]
  rw [checkAddress_of_not (by omega)]

/-- StackPush (R132): all it can commit. -/
theorem stackPush_ok {s t : State} {value : State → Byte} :
    s.stackPush value = .ok t ↔
      1 ≤ (s.readReg spIndex).toNat ∧ (s.readReg spIndex).toNat ≤ s.cfg.memSize ∧ t = pushed s value := by
  by_cases h : (s.readReg spIndex).toNat = 0 ∨ s.cfg.memSize < (s.readReg spIndex).toNat
  · rw [stackPush_of_no_room value h]
    simp only [reduceCtorEq, false_iff]
    omega
  · have h1 : 1 ≤ (s.readReg spIndex).toNat := by omega
    have h2 : (s.readReg spIndex).toNat ≤ s.cfg.memSize := by omega
    simp [stackPush_of_room value h1 h2, h1, h2, eq_comm]

/-- StackPush (R132): all it can raise. -/
theorem stackPush_error {s : State} {value : State → Byte} {e : CoreError} :
    s.stackPush value = .error e ↔
      e = { kind := .addressing, info := ((s.readReg spIndex).toNat : Int) - 1 } ∧
        ((s.readReg spIndex).toNat = 0 ∨ s.cfg.memSize < (s.readReg spIndex).toNat) := by
  by_cases h : (s.readReg spIndex).toNat = 0 ∨ s.cfg.memSize < (s.readReg spIndex).toNat
  · rw [stackPush_of_no_room value h]
    simp only [Except.error.injEq, h, and_true]
    exact eq_comm
  · rw [stackPush_of_room value (by omega) (by omega)]
    simp [h]

/-- The stack pointer a pop increments (R133): the popped byte where it goes to R7 itself. -/
def popBase (s : State) (dest : PopDest) : Nat :=
  if dest = .reg spIndex then (s.mem.read (s.readReg spIndex).toNat).toNat else (s.readReg spIndex).toNat

/-- The state after a pop that raised nothing (R133). -/
def popped (s : State) (dest : PopDest) : State :=
  (dest.put (s.mem.read (s.readReg spIndex).toNat) s).writeReg spIndex (BitVec.ofNat 8 (popBase s dest + 1))

/-- The byte whose successor is the new stack pointer, as StackPop computes it. -/
theorem popBase_eq (s : State) (dest : PopDest) :
    (if dest = .reg spIndex then s.mem.read (s.readReg spIndex).toNat else s.readReg spIndex).toNat =
      popBase s dest := by
  unfold popBase
  split <;> rfl

/-- StackPop (R133) where both addresses exist: the popped state. -/
theorem stackPop_of_room {s : State} {dest : PopDest} (h1 : (s.readReg spIndex).toNat < s.cfg.memSize)
    (h2 : popBase s dest + 1 < s.cfg.memSize) : s.stackPop dest = .ok (popped s dest) := by
  have hc := checkAddress_of_lt h2
  push_cast at hc
  simp only [State.stackPop, memRead_of_lt h1, popBase_eq, hc, popped]

/-- StackPop (R133) where the stack pointer leaves memory. -/
theorem stackPop_of_sp_out {s : State} (dest : PopDest) (h : s.cfg.memSize ≤ (s.readReg spIndex).toNat) :
    s.stackPop dest = .error { kind := .addressing, info := ((s.readReg spIndex).toNat : Int) } := by
  have hr : s.memRead ((s.readReg spIndex).toNat : Int) = _ := memRead_error.mpr ⟨rfl, .inr (by omega)⟩
  simp only [State.stackPop, hr]

/-- StackPop (R133) where the stack pointer exists and its successor does not. -/
theorem stackPop_of_next_out {s : State} {dest : PopDest} (h1 : (s.readReg spIndex).toNat < s.cfg.memSize)
    (h2 : s.cfg.memSize ≤ popBase s dest + 1) :
    s.stackPop dest = .error { kind := .addressing, info := (popBase s dest : Int) + 1 } := by
  have hc := checkAddress_of_not (s := s) (addr := (popBase s dest : Int) + 1) (by omega)
  simp only [State.stackPop, memRead_of_lt h1, popBase_eq, hc]

/-- StackPop (R133): all it can commit. -/
theorem stackPop_ok {s t : State} {dest : PopDest} :
    s.stackPop dest = .ok t ↔
      (s.readReg spIndex).toNat < s.cfg.memSize ∧ popBase s dest + 1 < s.cfg.memSize ∧ t = popped s dest := by
  by_cases h1 : (s.readReg spIndex).toNat < s.cfg.memSize
  · by_cases h2 : popBase s dest + 1 < s.cfg.memSize
    · simp [stackPop_of_room h1 h2, h1, h2, eq_comm]
    · simp [stackPop_of_next_out h1 (Nat.not_lt.mp h2), h2]
  · simp [stackPop_of_sp_out dest (Nat.not_lt.mp h1), h1]

/-- StackPop (R133): all it can raise, the first of its two addresses that does not exist. -/
theorem stackPop_error {s : State} {dest : PopDest} {e : CoreError} :
    s.stackPop dest = .error e ↔
      (s.cfg.memSize ≤ (s.readReg spIndex).toNat ∧
        e = { kind := .addressing, info := ((s.readReg spIndex).toNat : Int) }) ∨
      ((s.readReg spIndex).toNat < s.cfg.memSize ∧ s.cfg.memSize ≤ popBase s dest + 1 ∧
        e = { kind := .addressing, info := (popBase s dest : Int) + 1 }) := by
  by_cases h1 : (s.readReg spIndex).toNat < s.cfg.memSize
  · by_cases h2 : popBase s dest + 1 < s.cfg.memSize
    · simp [stackPop_of_room h1 h2, Nat.not_le.mpr h1, Nat.not_le.mpr h2]
    · simp [stackPop_of_next_out h1 (Nat.not_lt.mp h2), h1, Nat.not_le.mpr h1, Nat.not_lt.mp h2, eq_comm]
  · simp [stackPop_of_sp_out dest (Nat.not_lt.mp h1), h1, Nat.not_lt.mp h1, eq_comm]

/-- A register operand (R85). -/
theorem regOperand_ok {v : Byte} {i : RegIndex} : regOperand v = .ok i ↔ v.toNat = i.val := by
  unfold regOperand
  split
  · next h => simp [Fin.ext_iff]
  · next h =>
    simp only [reduceCtorEq, false_iff]
    omega

theorem regOperand_error {v : Byte} {e : CoreError} :
    regOperand v = .error e ↔ 8 ≤ v.toNat ∧ e = { kind := .invalidRegister, info := (v.toNat : Int) } := by
  unfold regOperand
  split
  · next h =>
    simp only [reduceCtorEq, false_iff]
    omega
  · next h => simp [Nat.not_lt.mp h, eq_comm]

theorem withReg_of_index {a : Byte} {i : RegIndex} (h : a.toNat = i.val) (k : RegIndex → Except CoreError State) :
    withReg a k = k i := by
  simp [withReg, regOperand_ok.mpr h]

theorem withReg_of_invalid {a : Byte} (h : 8 ≤ a.toNat) (k : RegIndex → Except CoreError State) :
    withReg a k = .error { kind := .invalidRegister, info := (a.toNat : Int) } := by
  simp [withReg, regOperand_error.mpr ⟨h, rfl⟩]

theorem withRegs_of_index {a b : Byte} {i j : RegIndex} (ha : a.toNat = i.val) (hb : b.toNat = j.val)
    (k : RegIndex → RegIndex → Except CoreError State) : withRegs a b k = k i j := by
  simp [withRegs, withReg_of_index ha, withReg_of_index hb]

section
variable (s : State) (value : State → Byte) (dest : PopDest) (r : RegIndex)

@[simp] theorem pushed_pc : (pushed s value).pc = s.pc := rfl
@[simp] theorem pushed_flags : (pushed s value).flags = s.flags := rfl
@[simp] theorem pushed_run : (pushed s value).run = s.run := rfl
@[simp] theorem pushed_out : (pushed s value).out = s.out := rfl
@[simp] theorem pushed_cfg : (pushed s value).cfg = s.cfg := rfl
theorem pushed_mem : (pushed s value).mem = s.mem.write ((s.readReg spIndex).toNat - 1)
    (value (s.writeReg spIndex (BitVec.ofNat 8 ((s.readReg spIndex).toNat - 1)))) := rfl
theorem pushed_readReg : (pushed s value).readReg r =
    if r = spIndex then BitVec.ofNat 8 ((s.readReg spIndex).toNat - 1) else s.readReg r :=
  State.readReg_writeReg s spIndex r _

@[simp] theorem put_flags (v : Byte) : (dest.put v s).flags = s.flags := by cases dest <;> rfl
@[simp] theorem put_mem (v : Byte) : (dest.put v s).mem = s.mem := by cases dest <;> rfl
@[simp] theorem put_run (v : Byte) : (dest.put v s).run = s.run := by cases dest <;> rfl
@[simp] theorem put_out (v : Byte) : (dest.put v s).out = s.out := by cases dest <;> rfl
@[simp] theorem put_cfg (v : Byte) : (dest.put v s).cfg = s.cfg := by cases dest <;> rfl

@[simp] theorem popped_flags : (popped s dest).flags = s.flags := by simp [popped]
@[simp] theorem popped_mem : (popped s dest).mem = s.mem := by simp [popped]
@[simp] theorem popped_run : (popped s dest).run = s.run := by simp [popped]
@[simp] theorem popped_out : (popped s dest).out = s.out := by simp [popped]
@[simp] theorem popped_cfg : (popped s dest).cfg = s.cfg := by simp [popped]
theorem popped_pc : (popped s .pc).pc = (s.mem.read (s.readReg spIndex).toNat).toNat := rfl
theorem popped_reg_pc (i : RegIndex) : (popped s (.reg i)).pc = s.pc := rfl
theorem popped_readReg (i : RegIndex) : (popped s (.reg i)).readReg r =
    if r = spIndex then BitVec.ofNat 8 (popBase s (.reg i) + 1)
    else if r = i then s.mem.read (s.readReg spIndex).toNat else s.readReg r := by
  simp [popped, State.readReg_writeReg, PopDest.put]
theorem popped_pc_readReg : (popped s .pc).readReg r =
    if r = spIndex then BitVec.ofNat 8 ((s.readReg spIndex).toNat + 1) else s.readReg r := by
  simp [popped, State.readReg_writeReg, PopDest.put, popBase]

end

end Sys2Proof.Machine
end

