-- ==== Sys2Proof/Laws/Exec.lean ====
section
/-! SUPPORT. What each instruction's meaning answers on register indices, in terms of the shared operations;
and its answer on an operand byte that is no index. -/

namespace Sys2Proof.Machine

section
variable {a b : Byte} {i j : RegIndex} (s : State)

theorem exec_add (ha : a.toNat = i.val) (hb : b.toNat = j.val) :
    exec (.add a b) s = .next ((alu .add i j s).setPc (s.pc + 3)) := by
  simp [exec, execAdd, withRegs_of_index ha hb]

theorem exec_mul (ha : a.toNat = i.val) (hb : b.toNat = j.val) :
    exec (.mul a b) s = .next ((alu .mul i j s).setPc (s.pc + 3)) := by
  simp [exec, execMul, withRegs_of_index ha hb]

theorem exec_cmp (ha : a.toNat = i.val) (hb : b.toNat = j.val) :
    exec (.cmp a b) s = .next ((alu .compare i j s).setPc (s.pc + 3)) := by
  simp [exec, execCmp, withRegs_of_index ha hb]

theorem exec_ldi (imm : Byte) (ha : a.toNat = i.val) :
    exec (.ldi a imm) s = .next ((s.writeReg i imm).setPc (s.pc + 3)) := by
  simp [exec, execLdi, withReg_of_index ha]

theorem exec_prn (ha : a.toNat = i.val) :
    exec (.prn a) s = .next ((s.emit (s.readReg i)).setPc (s.pc + 2)) := by
  simp [exec, execPrn, withReg_of_index ha]

theorem exec_jmp (ha : a.toNat = i.val) : exec (.jmp a) s = .next (s.setPc (s.readReg i).toNat) := by
  simp [exec, execJmp, withReg_of_index ha, State.target]

theorem exec_jeq (ha : a.toNat = i.val) :
    exec (.jeq a) s = .next (s.setPc (if s.flags.equal then (s.readReg i).toNat else s.pc + 2)) := by
  simp [exec, execJeq, jumpIf, withReg_of_index ha, State.target]

theorem exec_jne (ha : a.toNat = i.val) :
    exec (.jne a) s = .next (s.setPc (if s.flags.equal then s.pc + 2 else (s.readReg i).toNat)) := by
  cases h : s.flags.equal <;> simp [exec, execJne, jumpIf, withReg_of_index ha, State.target, h]

theorem exec_hlt : exec .hlt s = .next (s.halt.setPc (s.pc + 1)) := rfl

/-- PUSH with its operand register, over the push primitive. -/
theorem exec_push (ha : a.toNat = i.val) :
    exec (.push a) s = commit s (match s.stackPush (fun s1 => s1.readReg i) with
      | .ok t => .ok (t.setPc (s.pc + 2))
      | .error e => .error e) :=
  congrArg (commit s) (withReg_of_index ha _)

/-- POP with its operand register, over the pop primitive. -/
theorem exec_pop (ha : a.toNat = i.val) :
    exec (.pop a) s = commit s (match s.stackPop (.reg i) with
      | .ok t => .ok (t.setPc (s.pc + 2))
      | .error e => .error e) :=
  congrArg (commit s) (withReg_of_index ha _)

/-- CALL with its operand register, over the push primitive. -/
theorem exec_call (ha : a.toNat = i.val) :
    exec (.call a) s = commit s (match s.stackPush returnAddress with
      | .ok t => .ok (t.setPc (t.readReg i).toNat)
      | .error e => .error e) :=
  congrArg (commit s) (withReg_of_index ha _)

theorem exec_ret : exec .ret s = commit s (s.stackPop .pc) := rfl

end

/-- A one-register instruction, or LDI, whose operand_a is no register index raises InvalidRegisterError of
it (R85). -/
theorem exec_invalid_a {a : Byte} (h : 8 ≤ a.toNat) (s : State) (i : Instr)
    (hi : i ∈ [Instr.push a, .pop a, .prn a, .call a, .jmp a, .jeq a, .jne a] ∨
      (∃ imm, i = .ldi a imm) ∨ ∃ b, i ∈ [Instr.add a b, .mul a b, .cmp a b]) :
    exec i s = .next (s.raise { kind := .invalidRegister, info := (a.toNat : Int) }) := by
  rcases hi with hi | ⟨imm, rfl⟩ | ⟨b, hi⟩
  · simp only [List.mem_cons, List.not_mem_nil, or_false] at hi
    rcases hi with rfl | rfl | rfl | rfl | rfl | rfl | rfl <;>
      simp [exec, execPush, execPop, execPrn, execCall, execJmp, execJeq, execJne, jumpIf, withReg_of_invalid h]
  · simp [exec, execLdi, withReg_of_invalid h]
  · simp only [List.mem_cons, List.not_mem_nil, or_false] at hi
    rcases hi with rfl | rfl | rfl <;>
      simp [exec, execAdd, execMul, execCmp, withRegs, withReg_of_invalid h]

/-- A two-register instruction whose operand_a is an index and whose operand_b is none raises
InvalidRegisterError of operand_b (R85). -/
theorem exec_invalid_b {a b : Byte} {i : RegIndex} (ha : a.toNat = i.val) (hb : 8 ≤ b.toNat) (s : State)
    (ins : Instr) (hi : ins ∈ [Instr.add a b, .mul a b, .cmp a b]) :
    exec ins s = .next (s.raise { kind := .invalidRegister, info := (b.toNat : Int) }) := by
  simp only [List.mem_cons, List.not_mem_nil, or_false] at hi
  rcases hi with rfl | rfl | rfl <;>
    simp [exec, execAdd, execMul, execCmp, withRegs, withReg_of_index ha, withReg_of_invalid hb]

/-! The ALU's result, field by field. -/

section
variable (op : AluOp) (i j r : RegIndex) (s : State)

@[simp] theorem alu_pc : (alu op i j s).pc = s.pc := by cases op <;> rfl
@[simp] theorem alu_mem : (alu op i j s).mem = s.mem := by cases op <;> rfl
@[simp] theorem alu_run : (alu op i j s).run = s.run := by cases op <;> rfl
@[simp] theorem alu_out : (alu op i j s).out = s.out := by cases op <;> rfl
@[simp] theorem alu_cfg : (alu op i j s).cfg = s.cfg := by cases op <;> rfl
@[simp] theorem alu_add_flags : (alu .add i j s).flags = s.flags := rfl
@[simp] theorem alu_mul_flags : (alu .mul i j s).flags = s.flags := rfl
@[simp] theorem alu_compare_flags :
    (alu .compare i j s).flags = compareFlags (s.readReg i) (s.readReg j) := rfl
theorem alu_add_readReg : (alu .add i j s).readReg r =
    if r = i then wrap ((s.readReg i).toNat + (s.readReg j).toNat) else s.readReg r :=
  State.readReg_writeReg s i r _
theorem alu_mul_readReg : (alu .mul i j s).readReg r =
    if r = i then wrap ((s.readReg i).toNat * (s.readReg j).toNat) else s.readReg r :=
  State.readReg_writeReg s i r _
@[simp] theorem alu_compare_readReg : (alu .compare i j s).readReg r = s.readReg r := rfl

end

/-- The states an instruction can leave in `s` without an error, per instruction. -/
inductive Completed (s : State) : Instr → State → Prop where
  | hlt : Completed s .hlt (s.halt.setPc (s.pc + 1))
  | ret (hsp : (s.readReg spIndex).toNat < s.cfg.memSize) (hnext : popBase s .pc + 1 < s.cfg.memSize) :
      Completed s .ret (popped s .pc)
  | push {a : Byte} (i : RegIndex) (ha : a.toNat = i.val) (hlow : 1 ≤ (s.readReg spIndex).toNat)
      (hhigh : (s.readReg spIndex).toNat ≤ s.cfg.memSize) :
      Completed s (.push a) ((pushed s (fun s1 => s1.readReg i)).setPc (s.pc + 2))
  | pop {a : Byte} (i : RegIndex) (ha : a.toNat = i.val) (hsp : (s.readReg spIndex).toNat < s.cfg.memSize)
      (hnext : popBase s (.reg i) + 1 < s.cfg.memSize) :
      Completed s (.pop a) ((popped s (.reg i)).setPc (s.pc + 2))
  | prn {a : Byte} (i : RegIndex) (ha : a.toNat = i.val) :
      Completed s (.prn a) ((s.emit (s.readReg i)).setPc (s.pc + 2))
  | call {a : Byte} (i : RegIndex) (ha : a.toNat = i.val) (hlow : 1 ≤ (s.readReg spIndex).toNat)
      (hhigh : (s.readReg spIndex).toNat ≤ s.cfg.memSize) :
      Completed s (.call a) ((pushed s returnAddress).setPc ((pushed s returnAddress).readReg i).toNat)
  | jmp {a : Byte} (i : RegIndex) (ha : a.toNat = i.val) :
      Completed s (.jmp a) (s.setPc (s.readReg i).toNat)
  | jeq {a : Byte} (i : RegIndex) (ha : a.toNat = i.val) :
      Completed s (.jeq a) (s.setPc (if s.flags.equal then (s.readReg i).toNat else s.pc + 2))
  | jne {a : Byte} (i : RegIndex) (ha : a.toNat = i.val) :
      Completed s (.jne a) (s.setPc (if s.flags.equal then s.pc + 2 else (s.readReg i).toNat))
  | ldi {a imm : Byte} (i : RegIndex) (ha : a.toNat = i.val) :
      Completed s (.ldi a imm) ((s.writeReg i imm).setPc (s.pc + 3))
  | add {a b : Byte} (i j : RegIndex) (ha : a.toNat = i.val) (hb : b.toNat = j.val) :
      Completed s (.add a b) ((alu .add i j s).setPc (s.pc + 3))
  | mul {a b : Byte} (i j : RegIndex) (ha : a.toNat = i.val) (hb : b.toNat = j.val) :
      Completed s (.mul a b) ((alu .mul i j s).setPc (s.pc + 3))
  | cmp {a b : Byte} (i j : RegIndex) (ha : a.toNat = i.val) (hb : b.toNat = j.val) :
      Completed s (.cmp a b) ((alu .compare i j s).setPc (s.pc + 3))

/-- The errors an instruction can raise in `s` (R162): a register operand that is no index, or a stack address
that does not exist. -/
inductive Raisable (s : State) : CoreError → Prop where
  | register {v : Byte} (h : 8 ≤ v.toNat) : Raisable s { kind := .invalidRegister, info := (v.toNat : Int) }
  | address {addr : Int} (h : addr < 0 ∨ (s.cfg.memSize : Int) ≤ addr) :
      Raisable s { kind := .addressing, info := addr }

theorem index_or_invalid (a : Byte) : (∃ i : RegIndex, a.toNat = i.val) ∨ 8 ≤ a.toNat := by
  by_cases h : a.toNat < 8
  · exact .inl ⟨⟨a.toNat, h⟩, rfl⟩
  · exact .inr (Nat.not_lt.mp h)

/-- All that executing an instruction can answer: it completes, or it raises an error and commits nothing. -/
theorem exec_cases (ins : Instr) (s : State) :
    (∃ t, exec ins s = .next t ∧ Completed s ins t) ∨
    (∃ e, exec ins s = .next (s.raise e) ∧ Raisable s e) := by
  have invalid : ∀ {a : Byte}, 8 ≤ a.toNat → ∀ i : Instr,
      (i ∈ [Instr.push a, .pop a, .prn a, .call a, .jmp a, .jeq a, .jne a] ∨
        (∃ imm, i = .ldi a imm) ∨ ∃ b, i ∈ [Instr.add a b, .mul a b, .cmp a b]) →
      ∃ e, exec i s = .next (s.raise e) ∧ Raisable s e :=
    fun h i hi => ⟨_, exec_invalid_a h s i hi, .register h⟩
  have room : ∀ n : Nat, ¬ (n = 0 ∨ s.cfg.memSize < n) → 1 ≤ n ∧ n ≤ s.cfg.memSize := by omega
  cases ins with
  | hlt => exact .inl ⟨_, exec_hlt s, .hlt⟩
  | ret =>
    rw [exec_ret]
    cases h : s.stackPop .pc with
    | ok t =>
      obtain ⟨h1, h2, rfl⟩ := stackPop_ok.mp h
      exact .inl ⟨_, rfl, .ret h1 h2⟩
    | error e =>
      refine .inr ⟨_, rfl, ?_⟩
      rcases stackPop_error.mp h with ⟨h1, rfl⟩ | ⟨-, h2, rfl⟩
      · exact .address (.inr (by omega))
      · exact .address (.inr (by omega))
  | push a =>
    rcases index_or_invalid a with ⟨i, ha⟩ | ha
    · rw [exec_push s ha]
      by_cases h : (s.readReg spIndex).toNat = 0 ∨ s.cfg.memSize < (s.readReg spIndex).toNat
      · rw [stackPush_of_no_room _ h]
        exact .inr ⟨_, rfl, .address (by omega)⟩
      · rw [stackPush_of_room _ (room _ h).1 (room _ h).2]
        exact .inl ⟨_, rfl, .push i ha (room _ h).1 (room _ h).2⟩
    · exact .inr (invalid ha _ (by simp))
  | pop a =>
    rcases index_or_invalid a with ⟨i, ha⟩ | ha
    · rw [exec_pop s ha]
      cases h : s.stackPop (.reg i) with
      | ok t =>
        obtain ⟨h1, h2, rfl⟩ := stackPop_ok.mp h
        exact .inl ⟨_, rfl, .pop i ha h1 h2⟩
      | error e =>
        refine .inr ⟨_, rfl, ?_⟩
        rcases stackPop_error.mp h with ⟨h1, rfl⟩ | ⟨-, h2, rfl⟩
        · exact .address (.inr (by omega))
        · exact .address (.inr (by omega))
    · exact .inr (invalid ha _ (by simp))
  | prn a =>
    rcases index_or_invalid a with ⟨i, ha⟩ | ha
    · exact .inl ⟨_, exec_prn s ha, .prn i ha⟩
    · exact .inr (invalid ha _ (by simp))
  | call a =>
    rcases index_or_invalid a with ⟨i, ha⟩ | ha
    · rw [exec_call s ha]
      by_cases h : (s.readReg spIndex).toNat = 0 ∨ s.cfg.memSize < (s.readReg spIndex).toNat
      · rw [stackPush_of_no_room _ h]
        exact .inr ⟨_, rfl, .address (by omega)⟩
      · rw [stackPush_of_room _ (room _ h).1 (room _ h).2]
        exact .inl ⟨_, rfl, .call i ha (room _ h).1 (room _ h).2⟩
    · exact .inr (invalid ha _ (by simp))
  | jmp a =>
    rcases index_or_invalid a with ⟨i, ha⟩ | ha
    · exact .inl ⟨_, exec_jmp s ha, .jmp i ha⟩
    · exact .inr (invalid ha _ (by simp))
  | jeq a =>
    rcases index_or_invalid a with ⟨i, ha⟩ | ha
    · exact .inl ⟨_, exec_jeq s ha, .jeq i ha⟩
    · exact .inr (invalid ha _ (by simp))
  | jne a =>
    rcases index_or_invalid a with ⟨i, ha⟩ | ha
    · exact .inl ⟨_, exec_jne s ha, .jne i ha⟩
    · exact .inr (invalid ha _ (by simp))
  | ldi a imm =>
    rcases index_or_invalid a with ⟨i, ha⟩ | ha
    · exact .inl ⟨_, exec_ldi s imm ha, .ldi i ha⟩
    · exact .inr (invalid ha _ (by simp))
  | add a b =>
    rcases index_or_invalid a with ⟨i, ha⟩ | ha
    · rcases index_or_invalid b with ⟨j, hb⟩ | hb
      · exact .inl ⟨_, exec_add s ha hb, .add i j ha hb⟩
      · exact .inr ⟨_, exec_invalid_b ha hb s _ (by simp), .register hb⟩
    · exact .inr (invalid ha _ (by simp))
  | mul a b =>
    rcases index_or_invalid a with ⟨i, ha⟩ | ha
    · rcases index_or_invalid b with ⟨j, hb⟩ | hb
      · exact .inl ⟨_, exec_mul s ha hb, .mul i j ha hb⟩
      · exact .inr ⟨_, exec_invalid_b ha hb s _ (by simp), .register hb⟩
    · exact .inr (invalid ha _ (by simp))
  | cmp a b =>
    rcases index_or_invalid a with ⟨i, ha⟩ | ha
    · rcases index_or_invalid b with ⟨j, hb⟩ | hb
      · exact .inl ⟨_, exec_cmp s ha hb, .cmp i j ha hb⟩
      · exact .inr ⟨_, exec_invalid_b ha hb s _ (by simp), .register hb⟩
    · exact .inr (invalid ha _ (by simp))

/-- The same as an inversion of `exec … = .next t`. -/
theorem exec_next_cases {ins : Instr} {s t : State} (h : exec ins s = .next t) :
    Completed s ins t ∨ ∃ e, t = s.raise e ∧ Raisable s e := by
  rcases exec_cases ins s with ⟨u, hu, hc⟩ | ⟨e, he, hr⟩
  · obtain rfl : t = u := by simpa [h] using hu
    exact .inl hc
  · exact .inr ⟨e, by simpa [h] using he, hr⟩

end Sys2Proof.Machine
end

