-- ==== Sys2Proof/Laws/Pair.lean ====
section
/-! SUPPORT. One instruction executed in two states: what decides whether it raises an error. -/

namespace Sys2Proof.Machine

/-- The outcomes in two states are alike: both raise the same error, or both complete. -/
def AlikeOutcomes (i : Instr) (s s' : State) : Prop :=
  (∃ e, exec i s = .next (s.raise e) ∧ exec i s' = .next (s'.raise e)) ∨
  (∃ t t', exec i s = .next t ∧ exec i s' = .next t' ∧ Completed s i t ∧ Completed s' i t')

/-- Whether an instruction raises an error, and which, depends only on its operand bytes, `MEM_SIZE` and, for
the instructions that use the stack, the stack pointer and, where they load it, the byte at the top of the
stack. -/
theorem exec_alike (i : Instr) (s s' : State) (hM : s'.cfg.memSize = s.cfg.memSize)
    (hsp : usesStack i = true → s'.readReg spIndex = s.readReg spIndex)
    (htop : ∀ a ∈ loadedAt i.mnemonic s, s'.mem.read a = s.mem.read a) :
    AlikeOutcomes i s s' := by
  have invalid : ∀ {a : Byte}, 8 ≤ a.toNat → ∀ i : Instr,
      (i ∈ [Instr.push a, .pop a, .prn a, .call a, .jmp a, .jeq a, .jne a] ∨
        (∃ imm, i = .ldi a imm) ∨ ∃ b, i ∈ [Instr.add a b, .mul a b, .cmp a b]) → AlikeOutcomes i s s' :=
    fun h i hi => .inl ⟨_, exec_invalid_a h s i hi, exec_invalid_a h s' i hi⟩
  have room : ∀ n : Nat, ¬ (n = 0 ∨ s.cfg.memSize < n) → 1 ≤ n ∧ n ≤ s.cfg.memSize := by omega
  cases i with
  | hlt => exact .inr ⟨_, _, exec_hlt s, exec_hlt s', .hlt, .hlt⟩
  | ret =>
    have h7 := hsp rfl
    have hb : popBase s' .pc = popBase s .pc := by simp [popBase, h7]
    by_cases h1 : (s.readReg spIndex).toNat < s.cfg.memSize
    · by_cases h2 : popBase s .pc + 1 < s.cfg.memSize
      · have h1' : (s'.readReg spIndex).toNat < s'.cfg.memSize := by rw [h7, hM]; exact h1
        have h2' : popBase s' .pc + 1 < s'.cfg.memSize := by rw [hb, hM]; exact h2
        exact .inr ⟨_, _, by rw [exec_ret, stackPop_of_room h1 h2]; rfl,
          by rw [exec_ret, stackPop_of_room h1' h2']; rfl, .ret h1 h2, .ret h1' h2'⟩
      · have h1' : (s'.readReg spIndex).toNat < s'.cfg.memSize := by rw [h7, hM]; exact h1
        have h2' : s'.cfg.memSize ≤ popBase s' .pc + 1 := by rw [hb, hM]; exact Nat.not_lt.mp h2
        exact .inl ⟨_, by rw [exec_ret, stackPop_of_next_out h1 (Nat.not_lt.mp h2)]; rfl,
          by rw [exec_ret, stackPop_of_next_out h1' h2', hb]; rfl⟩
    · have h1' : s'.cfg.memSize ≤ (s'.readReg spIndex).toNat := by rw [h7, hM]; exact Nat.not_lt.mp h1
      exact .inl ⟨_, by rw [exec_ret, stackPop_of_sp_out _ (Nat.not_lt.mp h1)]; rfl,
        by rw [exec_ret, stackPop_of_sp_out _ h1', h7]; rfl⟩
  | push a =>
    have h7 := hsp rfl
    rcases index_or_invalid a with ⟨i, ha⟩ | ha
    · by_cases h : (s.readReg spIndex).toNat = 0 ∨ s.cfg.memSize < (s.readReg spIndex).toNat
      · have h' : (s'.readReg spIndex).toNat = 0 ∨ s'.cfg.memSize < (s'.readReg spIndex).toNat := by
          rw [h7, hM]; exact h
        exact .inl ⟨_, by rw [exec_push s ha, stackPush_of_no_room _ h]; rfl,
          by rw [exec_push s' ha, stackPush_of_no_room _ h', h7]; rfl⟩
      · obtain ⟨h1, h2⟩ := room _ h
        have h1' : 1 ≤ (s'.readReg spIndex).toNat := by rw [h7]; exact h1
        have h2' : (s'.readReg spIndex).toNat ≤ s'.cfg.memSize := by rw [h7, hM]; exact h2
        exact .inr ⟨_, _, by rw [exec_push s ha, stackPush_of_room _ h1 h2]; rfl,
          by rw [exec_push s' ha, stackPush_of_room _ h1' h2']; rfl, .push i ha h1 h2, .push i ha h1' h2'⟩
    · exact invalid ha _ (by simp)
  | call a =>
    have h7 := hsp rfl
    rcases index_or_invalid a with ⟨i, ha⟩ | ha
    · by_cases h : (s.readReg spIndex).toNat = 0 ∨ s.cfg.memSize < (s.readReg spIndex).toNat
      · have h' : (s'.readReg spIndex).toNat = 0 ∨ s'.cfg.memSize < (s'.readReg spIndex).toNat := by
          rw [h7, hM]; exact h
        exact .inl ⟨_, by rw [exec_call s ha, stackPush_of_no_room _ h]; rfl,
          by rw [exec_call s' ha, stackPush_of_no_room _ h', h7]; rfl⟩
      · obtain ⟨h1, h2⟩ := room _ h
        have h1' : 1 ≤ (s'.readReg spIndex).toNat := by rw [h7]; exact h1
        have h2' : (s'.readReg spIndex).toNat ≤ s'.cfg.memSize := by rw [h7, hM]; exact h2
        exact .inr ⟨_, _, by rw [exec_call s ha, stackPush_of_room _ h1 h2]; rfl,
          by rw [exec_call s' ha, stackPush_of_room _ h1' h2']; rfl, .call i ha h1 h2, .call i ha h1' h2'⟩
    · exact invalid ha _ (by simp)
  | pop a =>
    have h7 := hsp rfl
    have hm : s'.mem.read (s.readReg spIndex).toNat = s.mem.read (s.readReg spIndex).toNat :=
      htop _ (List.mem_singleton.mpr rfl)
    rcases index_or_invalid a with ⟨i, ha⟩ | ha
    · have hb : popBase s' (.reg i) = popBase s (.reg i) := by simp [popBase, h7, hm]
      by_cases h1 : (s.readReg spIndex).toNat < s.cfg.memSize
      · have h1' : (s'.readReg spIndex).toNat < s'.cfg.memSize := by rw [h7, hM]; exact h1
        by_cases h2 : popBase s (.reg i) + 1 < s.cfg.memSize
        · have h2' : popBase s' (.reg i) + 1 < s'.cfg.memSize := by rw [hb, hM]; exact h2
          exact .inr ⟨_, _, by rw [exec_pop s ha, stackPop_of_room h1 h2]; rfl,
            by rw [exec_pop s' ha, stackPop_of_room h1' h2']; rfl, .pop i ha h1 h2, .pop i ha h1' h2'⟩
        · have h2' : s'.cfg.memSize ≤ popBase s' (.reg i) + 1 := by rw [hb, hM]; exact Nat.not_lt.mp h2
          exact .inl ⟨_, by rw [exec_pop s ha, stackPop_of_next_out h1 (Nat.not_lt.mp h2)]; rfl,
            by rw [exec_pop s' ha, stackPop_of_next_out h1' h2', hb]; rfl⟩
      · have h1' : s'.cfg.memSize ≤ (s'.readReg spIndex).toNat := by rw [h7, hM]; exact Nat.not_lt.mp h1
        exact .inl ⟨_, by rw [exec_pop s ha, stackPop_of_sp_out _ (Nat.not_lt.mp h1)]; rfl,
          by rw [exec_pop s' ha, stackPop_of_sp_out _ h1', h7]; rfl⟩
    · exact invalid ha _ (by simp)
  | prn a =>
    rcases index_or_invalid a with ⟨i, ha⟩ | ha
    · exact .inr ⟨_, _, exec_prn s ha, exec_prn s' ha, .prn i ha, .prn i ha⟩
    · exact invalid ha _ (by simp)
  | jmp a =>
    rcases index_or_invalid a with ⟨i, ha⟩ | ha
    · exact .inr ⟨_, _, exec_jmp s ha, exec_jmp s' ha, .jmp i ha, .jmp i ha⟩
    · exact invalid ha _ (by simp)
  | jeq a =>
    rcases index_or_invalid a with ⟨i, ha⟩ | ha
    · exact .inr ⟨_, _, exec_jeq s ha, exec_jeq s' ha, .jeq i ha, .jeq i ha⟩
    · exact invalid ha _ (by simp)
  | jne a =>
    rcases index_or_invalid a with ⟨i, ha⟩ | ha
    · exact .inr ⟨_, _, exec_jne s ha, exec_jne s' ha, .jne i ha, .jne i ha⟩
    · exact invalid ha _ (by simp)
  | ldi a imm =>
    rcases index_or_invalid a with ⟨i, ha⟩ | ha
    · exact .inr ⟨_, _, exec_ldi s imm ha, exec_ldi s' imm ha, .ldi i ha, .ldi i ha⟩
    · exact invalid ha _ (by simp)
  | add a b =>
    rcases index_or_invalid a with ⟨i, ha⟩ | ha
    · rcases index_or_invalid b with ⟨j, hb⟩ | hb
      · exact .inr ⟨_, _, exec_add s ha hb, exec_add s' ha hb, .add i j ha hb, .add i j ha hb⟩
      · exact .inl ⟨_, exec_invalid_b ha hb s _ (by simp), exec_invalid_b ha hb s' _ (by simp)⟩
    · exact invalid ha _ (by simp)
  | mul a b =>
    rcases index_or_invalid a with ⟨i, ha⟩ | ha
    · rcases index_or_invalid b with ⟨j, hb⟩ | hb
      · exact .inr ⟨_, _, exec_mul s ha hb, exec_mul s' ha hb, .mul i j ha hb, .mul i j ha hb⟩
      · exact .inl ⟨_, exec_invalid_b ha hb s _ (by simp), exec_invalid_b ha hb s' _ (by simp)⟩
    · exact invalid ha _ (by simp)
  | cmp a b =>
    rcases index_or_invalid a with ⟨i, ha⟩ | ha
    · rcases index_or_invalid b with ⟨j, hb⟩ | hb
      · exact .inr ⟨_, _, exec_cmp s ha hb, exec_cmp s' ha hb, .cmp i j ha hb, .cmp i j ha hb⟩
      · exact .inl ⟨_, exec_invalid_b ha hb s _ (by simp), exec_invalid_b ha hb s' _ (by simp)⟩
    · exact invalid ha _ (by simp)

end Sys2Proof.Machine
end

