-- ==== Sys2Proof/Laws/Step.lean ====
section
/-! SUPPORT. The fetch and the step: everything they can answer. -/

namespace Sys2Proof.Machine

/-- The fetch where the whole window exists (R81). -/
theorem fetchWindow_of_lt {s : State} (h : s.pc + 2 < s.cfg.memSize) :
    fetchWindow s = .ok { op := s.mem.read s.pc, a := s.mem.read (s.pc + 1), b := s.mem.read (s.pc + 2) } := by
  have h0 := memRead_of_lt (s := s) (a := s.pc) (by omega)
  have h1 := memRead_of_lt (s := s) (a := s.pc + 1) (by omega)
  have h2 := memRead_of_lt (s := s) (a := s.pc + 2) h
  push_cast at h1 h2
  simp only [fetchWindow, h0, h1, h2]

/-- The fetch where the window leaves memory (R81): the first address that does not exist is the pc or
`MEM_SIZE`, whichever is larger. -/
theorem fetchWindow_of_le {s : State} (h : s.cfg.memSize ≤ s.pc + 2) :
    fetchWindow s = .error { kind := .addressing, info := ((max s.pc s.cfg.memSize : Nat) : Int) } := by
  have err : ∀ addr : Int, (s.cfg.memSize : Int) ≤ addr →
      s.memRead addr = .error { kind := .addressing, info := addr } :=
    fun addr ha => memRead_error.mpr ⟨rfl, .inr ha⟩
  unfold fetchWindow
  by_cases h0 : s.cfg.memSize ≤ s.pc
  · simp [err _ (by omega : (s.cfg.memSize : Int) ≤ (s.pc : Int)), Nat.max_eq_left h0]
  · have hr0 := memRead_of_lt (s := s) (a := s.pc) (by omega)
    simp only [hr0]
    by_cases h1 : s.cfg.memSize ≤ s.pc + 1
    · rw [err _ (by omega : (s.cfg.memSize : Int) ≤ (s.pc : Int) + 1)]
      simp only [Except.error.injEq, CoreError.mk.injEq, true_and]
      omega
    · have hr1 := memRead_of_lt (s := s) (a := s.pc + 1) (by omega)
      push_cast at hr1
      simp only [hr1]
      rw [err _ (by omega : (s.cfg.memSize : Int) ≤ (s.pc : Int) + 2)]
      simp only [Except.error.injEq, CoreError.mk.injEq, true_and]
      omega

/-- The cases of a step from a Running state (R88): the window leaves memory, the opcode is not in the map,
or the decoded instruction is executed. -/
theorem step_running {s : State} (h : s.run = .running) :
    (s.cfg.memSize ≤ s.pc + 2 ∧ step s = .next (s.raise
      { kind := .addressing, info := ((max s.pc s.cfg.memSize : Nat) : Int) })) ∨
    (s.pc + 2 < s.cfg.memSize ∧ s.cfg.opcodes.select (s.mem.read s.pc) = none ∧ step s = .next (s.raise
      { kind := .decode, info := ((s.mem.read s.pc).toNat : Int) })) ∨
    (s.pc + 2 < s.cfg.memSize ∧ ∃ k, s.cfg.opcodes.select (s.mem.read s.pc) = some k ∧
      step s = exec (k.instr (s.mem.read (s.pc + 1)) (s.mem.read (s.pc + 2))) s) := by
  unfold step fetchDecode
  simp only [h, stopReason]
  by_cases hw : s.cfg.memSize ≤ s.pc + 2
  · exact .inl ⟨hw, by simp [fetchWindow_of_le hw]⟩
  · simp only [fetchWindow_of_lt (Nat.not_le.mp hw), decodeWindow]
    cases hk : s.cfg.opcodes.select (s.mem.read s.pc) with
    | none => exact .inr (.inl ⟨by omega, rfl, rfl⟩)
    | some k => exact .inr (.inr ⟨by omega, k, rfl, rfl⟩)

/-- No step from Halted or Faulted (R80). -/
theorem step_halted {s : State} (h : s.run = .halted) : step s = .fault .halted := by
  simp [step, h, stopReason]

theorem step_faulted {s : State} {f : FaultRecord} (h : s.run = .faulted f) : step s = .fault (.faulted f) := by
  simp [step, h, stopReason]

/-- The errors a step can raise before it executes (R81, R82). -/
inductive FetchError (s : State) : CoreError → Prop where
  | window (h : s.cfg.memSize ≤ s.pc + 2) :
      FetchError s { kind := .addressing, info := ((max s.pc s.cfg.memSize : Nat) : Int) }
  | opcode (h : s.cfg.opcodes.select (s.mem.read s.pc) = none) :
      FetchError s { kind := .decode, info := ((s.mem.read s.pc).toNat : Int) }

/-- All a step can do: it starts Running, and it raises an error of the fetch, or an error of the decoded
instruction, or that instruction completes. -/
theorem step_next_cases {s t : State} (h : step s = .next t) : s.run = .running ∧
    ((∃ e, t = s.raise e ∧ (FetchError s e ∨ Raisable s e)) ∨
      ∃ k ins, ins = Mnemonic.instr k (s.mem.read (s.pc + 1)) (s.mem.read (s.pc + 2)) ∧
        s.pc + 2 < s.cfg.memSize ∧ s.cfg.opcodes.select (s.mem.read s.pc) = some k ∧ Completed s ins t) := by
  have hr : s.run = .running := by
    cases hrun : s.run with
    | running => rfl
    | halted => simp [step_halted hrun] at h
    | faulted f => simp [step_faulted hrun] at h
  refine ⟨hr, ?_⟩
  rcases step_running hr with ⟨hw, he⟩ | ⟨-, hk, he⟩ | ⟨hw, k, hk, he⟩
  · exact .inl ⟨_, by simpa [h] using he, .inl (.window hw)⟩
  · exact .inl ⟨_, by simpa [h] using he, .inl (.opcode hk)⟩
  · rcases exec_next_cases (he.symm.trans h) with hc | ⟨e, ht, hraise⟩
    · exact .inr ⟨k, _, rfl, hw, hk, hc⟩
    · exact .inl ⟨e, ht, .inr hraise⟩

end Sys2Proof.Machine
end

