-- ==== Sys2Proof/Tests/Slice0.lean ====
section
/-! SUPPORT. Tests of the model on vectors of 95_test_vectors.md (named in each comment), smoke tests of the
checks, decoding tests, and a witness for the hypotheses of every statement. -/

namespace Sys2Proof.Tests

open Sys2Proof Sys2Proof.Machine

/-- The state an outcome leads to, if it leads to one. -/
def after (o : Outcome) : Option State :=
  match o with
  | .next t => some t
  | _ => none

/-- The state from reset with the bytes placed at `pc` and the pc there. -/
def at_ (pc : Nat) (bytes : List Byte) : State :=
  { State.reset with pc := pc, mem := Memory.writeAll [] pc bytes }

/-- `at_ 0x10`, the start state of most vectors. -/
def at10 (bytes : List Byte) : State := at_ 0x10 bytes

/-- The state with registers 0 and 1 set. -/
def regs01 (u v : Byte) (s : State) : State := (s.writeReg 0 u).writeReg 1 v

/-- The state with one register set. -/
def reg (i : RegIndex) (v : Byte) (s : State) : State := s.writeReg i v

/-- The state with one byte of memory set. -/
def byte (a : Nat) (v : Byte) (s : State) : State := { s with mem := s.mem.write a v }

/-- The state with the flags L, G, E. -/
def lge (l g e : Bool) (s : State) : State := s.setFlags { less := l, greater := g, equal := e }

/-- Memory of 16 cells. -/
def small (s : State) : State := { s with cfg := { s.cfg with memSize := 16 } }

/-- The run state after one step. -/
def runAfter (s : State) : Option RunState := (after (step s)).map (fun t => t.run)

/-! Checks: one ill-formed term for each. -/

theorem test_wf_accepts : Instr.wellFormed (.add 7 0) = true ∧ Instr.wellFormed (.ldi 0 200) = true := by decide
theorem test_wf_refuses_operand_a : Instr.wellFormed (.add 8 0) = false := by decide
theorem test_wf_refuses_operand_b : Instr.wellFormed (.cmp 0 10) = false := by decide
theorem test_wf_refuses_one_register : Instr.wellFormed (.push 9) = false := by decide
theorem test_config_accepts : defaultConfig.valid = true := by decide
theorem test_config_refuses_small : ({ defaultConfig with memSize := 2 } : Config).valid = false := by decide
theorem test_config_refuses_large : ({ defaultConfig with memSize := 257 } : Config).valid = false := by decide
theorem test_config_refuses_shared_opcode :
    ({ defaultConfig with opcodes := { defaultOpcodes with add := 0xA2 } } : Config).valid = false := by decide
theorem test_memory_refuses_unsorted : Memory.wf [(5, 1), (3, 1)] = false := by decide
theorem test_memory_refuses_unwritten : Memory.wf [(3, 0)] = false := by decide
theorem test_reset_memory : State.reset.mem.wf = true := by decide

/-! Decoding: one word per format, from R60 and R64, and the default map (R64, R67). -/

theorem test_decode_rr : decode defaultOpcodes [0b10100000, 0b00000010, 0b00000101] = .ok (.add 2 5) := by decide
theorem test_decode_ri : decode defaultOpcodes [0b10000010, 0b00000001, 0b11001000] = .ok (.ldi 1 200) := by decide
theorem test_decode_r : decode defaultOpcodes [0b01000101, 0b00000111, 0b11111111] = .ok (.push 7) := by decide
theorem test_decode_transfer : decode defaultOpcodes [0b01010000, 0b00000001, 0b00000000] = .ok (.call 1) := by decide
theorem test_decode_n : decode defaultOpcodes [0b00010001, 0b11101110, 0b11101110] = .ok .ret := by decide
theorem test_decode_alu : decode defaultOpcodes [0b10100010, 0b00000101, 0b00000010] = .ok (.mul 5 2) ∧
    decode defaultOpcodes [0b10100111, 0b00000000, 0b00001010] = .ok (.cmp 0 10) := by decide
theorem test_decode_one_register : decode defaultOpcodes [0b01000110, 0b00000111, 0b11111111] = .ok (.pop 7) ∧
    decode defaultOpcodes [0b01000111, 0b00001000, 0b11111111] = .ok (.prn 8) := by decide
theorem test_decode_jumps : decode defaultOpcodes [0b01010100, 0b00000011, 0b00000000] = .ok (.jmp 3) ∧
    decode defaultOpcodes [0b01010101, 0b00000010, 0b00000000] = .ok (.jeq 2) ∧
    decode defaultOpcodes [0b01010110, 0b00001011, 0b00000000] = .ok (.jne 11) := by decide
theorem test_decode_halt : decode defaultOpcodes [0b00000001, 0b11101110, 0b11101110] = .ok .hlt := by decide
/-- B-DEC-3 and B-DEC-2: a byte between ADD and MUL, and 0, are no opcodes. -/
theorem test_decode_rejects : decode defaultOpcodes [0xA1, 0, 1] = .error (.unknownOpcode 0xA1) ∧
    decode defaultOpcodes [0, 0, 0] = .error (.unknownOpcode 0) := by decide
theorem test_decode_short : decode defaultOpcodes [0x01, 0x00] = .error .shortWindow := by decide
/-- R67: bytes beside and between the default opcodes are illegal. -/
theorem test_illegal_bytes : ∀ op ∈ ([0x00, 0x02, 0x10, 0x44, 0x48, 0x51, 0x57, 0x83, 0xA1, 0xA8, 0xFF] : List Byte),
    defaultOpcodes.select op = none := by decide
theorem test_table_word : decodeTableWord 24 0xC80182 = some (.ldi 1 200) ∧ decodeTableWord 8 0x01 = some .hlt ∧
    decodeTableWord 16 0x0345 = some (.push 3) := by decide
/-- The word placed at reset is what the next step runs: LDI R1, 200. -/
theorem test_fetch_word : (after (step (State.reset.withFetchWord 24 0xC80182))).map (fun t => (t.readReg 1, t.pc)) =
    some (200, 3) := by decide

/-! One step per instruction. -/

/-- B-ADD-2. -/
theorem test_add_wraps : (after (step (regs01 200 100 (at10 [0xA0, 0, 1])))).map
    (fun t => (t.readReg 0, t.readReg 1, t.pc)) = some (44, 100, 0x13) := by decide
/-- B-ADD-7: the stack pointer wraps as an ordinary register. -/
theorem test_add_sp : (after (step (reg 0 0x0C (at10 [0xA0, 7, 0])))).map
    (fun t => (t.readReg 7, t.run)) = some (0, .running) := by decide
/-- B-MUL-3. -/
theorem test_mul_wraps : (after (step (regs01 255 255 (at10 [0xA2, 0, 1])))).map
    (fun t => (t.readReg 0, t.pc)) = some (1, 0x13) := by decide
/-- B-MUL-6. -/
theorem test_mul_squares : (after (step (reg 3 13 (at10 [0xA2, 3, 3])))).map
    (fun t => t.readReg 3) = some 169 := by decide
/-- B-CMP-1: unsigned. -/
theorem test_cmp_unsigned : (after (step (regs01 3 200 (at10 [0xA7, 0, 1])))).map
    (fun t => (t.flags, t.pc)) = some ({ less := true, greater := false, equal := false }, 0x13) := by decide
/-- B-CMP-8: a bad operand_b leaves the flags. -/
theorem test_cmp_bad_operand : (after (step (lge false false true (at10 [0xA7, 0, 10])))).map
    (fun t => (t.flags.equal, t.run)) =
    some (true, .faulted { kind := .invalidRegister, pc := 0x10, info := 10 }) := by decide
/-- B-LDI-5: the immediate is never checked as a register. -/
theorem test_ldi_immediate : (after (step (at10 [0x82, 1, 0xC8]))).map
    (fun t => (t.readReg 1, t.pc)) = some (200, 0x13) := by decide
/-- B-LDI-4. -/
theorem test_ldi_bad_register : runAfter (at10 [0x82, 8, 1]) =
    some (.faulted { kind := .invalidRegister, pc := 0x10, info := 8 }) := by decide
/-- B-PRN-2. -/
theorem test_prn_appends : (after (step { at10 [0x47, 7] with out := [8] })).map
    (fun t => (t.out, t.pc)) = some ([8, 244], 0x12) := by decide
/-- B-PRN-3: the third byte is no operand. -/
theorem test_prn_ignores : (after (step (reg 0 8 (at10 [0x47, 0, 0xFF])))).map
    (fun t => (t.out, t.pc)) = some ([8], 0x12) := by decide
/-- B-PUSH-4. -/
theorem test_push_sp : (after (step (at10 [0x45, 7]))).map
    (fun t => (t.readReg 7, t.mem.read 0xF3, t.pc)) = some (0xF3, 0xF3, 0x12) := by decide
/-- B-PUSH-3. -/
theorem test_push_overflow : runAfter (reg 7 0 (at10 [0x45, 0])) =
    some (.faulted { kind := .addressing, pc := 0x10, info := -1 }) := by decide
/-- B-POP-4. -/
theorem test_pop_into_sp : (after (step (byte 0xF3 0x50 (reg 7 0xF3 (at10 [0x46, 7]))))).map
    (fun t => (t.readReg 7, t.mem.read 0xF3, t.pc)) = some (0x51, 0x50, 0x12) := by decide
/-- B-POP-5. -/
theorem test_pop_255_into_sp : runAfter (byte 0xF3 0xFF (reg 7 0xF3 (at10 [0x46, 7]))) =
    some (.faulted { kind := .addressing, pc := 0x10, info := 256 }) := by decide
/-- B-CALL-1. -/
theorem test_call_returns_to_next : (after (step (reg 1 11 (at_ 6 [0x50, 1])))).map
    (fun t => (t.mem.read 0xF3, t.readReg 7, t.pc)) = some (8, 0xF3, 11) := by decide
/-- B-CALL-2. -/
theorem test_call_through_sp : (after (step (at10 [0x50, 7]))).map
    (fun t => (t.mem.read 0xF3, t.readReg 7, t.pc)) = some (0x12, 0xF3, 0xF3) := by decide
/-- B-RET-4: operand bytes ignored. -/
theorem test_ret_pops : (after (step (byte 0xF3 8 (reg 7 0xF3 (at_ 0x20 [0x11, 0xEE, 0xEE]))))).map
    (fun t => (t.readReg 7, t.pc, t.run)) = some (0xF4, 8, .running) := by decide
/-- B-RET-2. -/
theorem test_ret_underflow : runAfter (reg 7 0xFF (at_ 0x20 [0x11])) =
    some (.faulted { kind := .addressing, pc := 0x20, info := 256 }) := by decide
/-- B-JMP-1. -/
theorem test_jmp_goes : (after (step (reg 3 12 (at10 [0x54, 3])))).map (fun t => t.pc) = some 12 := by decide
/-- B-JEQ-1. -/
theorem test_jeq_taken : (after (step (reg 2 40 (lge false false true (at10 [0x55, 2]))))).map
    (fun t => t.pc) = some 40 := by decide
/-- B-JEQ-5: the operand is checked although the jump is not taken. -/
theorem test_jeq_bad_operand : runAfter (at10 [0x55, 9]) =
    some (.faulted { kind := .invalidRegister, pc := 0x10, info := 9 }) := by decide
/-- B-JNE-1. -/
theorem test_jne_taken : (after (step (reg 3 12 (lge true false false (at10 [0x56, 3]))))).map
    (fun t => t.pc) = some 12 := by decide
/-- B-JNE-2. -/
theorem test_jne_not_taken : (after (step (reg 3 12 (lge false false true (at10 [0x56, 3]))))).map
    (fun t => t.pc) = some 0x12 := by decide
/-- B-HLT-2. -/
theorem test_hlt_last_window : (after (step (at_ 253 [0x01]))).map (fun t => (t.run, t.pc)) =
    some (.halted, 254) := by decide
/-- B-HLT-3. -/
theorem test_hlt_window_leaves : runAfter (at_ 254 [0x01]) =
    some (.faulted { kind := .addressing, pc := 254, info := 256 }) := by decide

/-! Fetch, priority, the load interface, status and assembler text. -/

/-- B-FET-2 and B-PUSH-6: address before decode, register before stack. -/
theorem test_priority : runAfter (at_ 254 [0xFF]) = some (.faulted { kind := .addressing, pc := 254, info := 256 }) ∧
    runAfter (reg 7 0 (at10 [0x45, 9])) = some (.faulted { kind := .invalidRegister, pc := 0x10, info := 9 }) := by
  decide
/-- B-PUSH-5 and B-POP-6: a memory of 16 cells. -/
theorem test_small_memory : runAfter (reg 7 0x20 (small (at_ 0 [0x45, 0]))) =
      some (.faulted { kind := .addressing, pc := 0, info := 0x1F }) ∧
    runAfter (reg 7 0x20 (small (at_ 0 [0x46, 0]))) =
      some (.faulted { kind := .addressing, pc := 0, info := 0x20 }) := by decide
/-- R180: from reset with nothing loaded, the first step raises DecodeError of byte 0 (B-DEC-2). -/
theorem test_reset_runs_nothing : runAfter State.reset = some (.faulted { kind := .decode, pc := 0, info := 0 }) := by
  decide
/-- R184: a comment, a short literal, a blank line. -/
theorem test_parse : parseSource ['1', '0', '1', ' ', '#', 'x', '\n', '\n', ' ', '1', '\r', '\n'] = .ok [5, 1] := by
  decide
theorem test_parse_fails : parseSource ['1', '2'] = .error .badToken ∧
    parseSource ['1', '0', '0', '0', '0', '0', '0', '0', '0'] = .error .badToken := by decide
/-- R161 and R173. -/
theorem test_status : ErrorKind.decode.code = 3 ∧ hostReaction .halted = some .returnsToCaller ∧
    hostReaction (.faulted { kind := .decode, pc := 5, info := 255 }) =
      some (.reportsOpcodeAndExitsNonZero 255 5) := by decide
/-- R69: `LDI R0, 8` and `HLT`. -/
theorem test_assembly : assemblyText (.ldi 0 8) = some ['L', 'D', 'I', ' ', 'R', '0', ',', ' ', '8'] ∧
    assemblyText .hlt = some ['H', 'L', 'T'] ∧ assemblyText (.push 8) = none := by decide

/-! Witnesses: concrete values that meet the hypotheses of each statement, clause by clause, at a boundary of
the clause's range. -/

/-- A state that runs `PUSH R0` at 0x10, with a stack pointer and a value. -/
def pushing (sp v : Byte) : State := reg 7 sp (reg 0 v (at10 [0x45, 0]))

theorem witness_register_operand : ∀ r : RegIndex, (BitVec.ofNat 8 r.val).toNat = r.val := by decide

theorem witness_pushing_inv : (pushing 0xF4 42).Inv := by
  refine ⟨by decide, by decide, by decide, by decide, by decide, fun f hf => ?_⟩
  nomatch (show RunState.running = .faulted f from hf)

theorem witness_ResetHoldsTheSpecifiedValues : (0 : RegIndex) ≠ 7 ∧ (6 : RegIndex) ≠ 7 := by decide

theorem witness_ResetAndLoadMeetTheInvariant :
    ({ memSize := 3, spInit := 0xFF, opcodes := defaultOpcodes } : Config).valid = true ∧
    (pushing 0xF4 42).Inv ∧ ∃ t, loadImage [1, 0, 7] (pushing 0xF4 42) = .ok t :=
  ⟨by decide, witness_pushing_inv, _, rfl⟩

theorem witness_EveryStepKeepsTheInvariant : (pushing 0xF4 42).Inv ∧ ∃ t, step (pushing 0xF4 42) = .next t :=
  ⟨witness_pushing_inv, _, rfl⟩

theorem witness_NoStepChangesTheParameters : ∃ t, step (pushing 0xF4 42) = .next t := ⟨_, rfl⟩

theorem witness_DecodeGivesBackTheEncodedInstruction : defaultOpcodes.distinct = true ∧
    3 ≤ (encode defaultOpcodes (.add 1 2) ++ []).length ∧ 3 ≤ (encode defaultOpcodes .hlt ++ [9, 9]).length := by
  decide

theorem witness_DecodedWindowBeginsWithItsEncoding : decodeWindow defaultOpcodes 0x11 0xEE 0xEE = .ok .ret ∧
    decodeWindow defaultOpcodes 0x82 0 8 = .ok (.ldi 0 8) := by decide

theorem witness_OpcodeByteIsMatchedWhole : (at_ 253 [0xFF]).run = .running ∧
    (at_ 253 [0xFF]).pc + 2 < (at_ 253 [0xFF]).cfg.memSize ∧
    ¬ ∃ k, (at_ 253 [0xFF]).cfg.opcodes.byteOf k = (at_ 253 [0xFF]).mem.read (at_ 253 [0xFF]).pc ∧
      ∀ k', (at_ 253 [0xFF]).cfg.opcodes.byteOf k' = (at_ 253 [0xFF]).mem.read (at_ 253 [0xFF]).pc → k' = k := by
  refine ⟨by decide, by decide, ?_⟩
  rintro ⟨k, hk, -⟩
  cases k <;> exact absurd hk (by decide)

theorem witness_IgnoredBytesHaveNoValueButAnAddress :
    (defaultOpcodes.select 0x11 = some .ret ∧ Mnemonic.ret.format = .n) ∧
    (defaultOpcodes.select 0x45 = some .push ∧ Mnemonic.push.format = .r) ∧
    ((at_ 254 [0x01]).run = .running ∧ (at_ 254 [0x01]).cfg.memSize ≤ (at_ 254 [0x01]).pc + 2) := by decide

/-- The step clause for both formats that ignore bytes: RET with another operand_a, which it does not load, and
PUSH with another operand_b, onto which it stores. -/
theorem witness_ignored_bytes :
    (∀ a, a ∉ ignoredAt .ret 0x10 → ((at10 [0x11]).mem.write 0x11 9).read a = (at10 [0x11]).mem.read a) ∧
    ((at10 [0x11]).run = .running ∧ (at10 [0x11]).pc + 2 < (at10 [0x11]).cfg.memSize ∧
      (at10 [0x11]).cfg.opcodes.select ((at10 [0x11]).mem.read 0x10) = some .ret ∧
      loadedAt .ret (at10 [0x11]) = [0xF4] ∧ 0xF4 ∉ ignoredAt .ret 0x10) ∧
    (∀ a, a ∉ ignoredAt .push 0x10 → ((at10 [0x45]).mem.write 0x12 9).read a = (at10 [0x45]).mem.read a) ∧
    ((reg 7 0x13 (at10 [0x45])).run = .running ∧ (reg 7 0x13 (at10 [0x45])).mem = (at10 [0x45]).mem ∧
      (reg 7 0x13 (at10 [0x45])).cfg.opcodes.select ((at10 [0x45]).mem.read 0x10) = some .push ∧
      loadedAt .push (reg 7 0x13 (at10 [0x45])) = [] ∧ storedAt (.push 0) (reg 7 0x13 (at10 [0x45])) = [0x12]) :=
  ⟨fun _ h => Memory.read_write_ne _ _ (fun e => h (e ▸ (by decide : (0x11 : Nat) ∈ ignoredAt .ret 0x10))), by decide,
    fun _ h => Memory.read_write_ne _ _ (fun e => h (e ▸ (by decide : (0x12 : Nat) ∈ ignoredAt .push 0x10))), by decide⟩

theorem witness_StepRunsTheDecodedInstruction : (at_ 253 [0x01, 2, 3]).run = .running ∧
    (at_ 253 [0x01, 2, 3]).pc + 2 < (at_ 253 [0x01, 2, 3]).cfg.memSize ∧
    decode (at_ 253 [0x01, 2, 3]).cfg.opcodes [(at_ 253 [0x01, 2, 3]).mem.read 253,
      (at_ 253 [0x01, 2, 3]).mem.read 254, (at_ 253 [0x01, 2, 3]).mem.read 255] = .ok .hlt := by decide

theorem witness_OnlyARunningMachineSteps : (at_ 0 []).run = .running ∧ (at_ 0 []).halt.run = .halted ∧
    ((at_ 0 []).raise { kind := .decode, info := 0 }).run = .faulted { kind := .decode, pc := 0, info := 0 } := by
  decide

/-- The four clauses of the fetch, at pc 256, 255, 254 and 253 with 256 cells. -/
theorem witness_FetchChecksTheWholeWindow :
    ((at_ 256 []).run = .running ∧ (at_ 256 []).cfg.memSize ≤ (at_ 256 []).pc) ∧
    ((at_ 255 []).pc < (at_ 255 []).cfg.memSize ∧ (at_ 255 []).cfg.memSize ≤ (at_ 255 []).pc + 1) ∧
    ((at_ 254 []).pc + 1 < (at_ 254 []).cfg.memSize ∧ (at_ 254 []).cfg.memSize ≤ (at_ 254 []).pc + 2) ∧
    (at_ 253 []).pc + 2 < (at_ 253 []).cfg.memSize := by decide

theorem witness_UnknownOpcodeRaisesDecodeError : (at_ 253 [0xFF]).run = .running ∧
    (at_ 253 [0xFF]).pc + 2 < (at_ 253 [0xFF]).cfg.memSize ∧
    ∀ k, (at_ 253 [0xFF]).cfg.opcodes.byteOf k ≠ (at_ 253 [0xFF]).mem.read (at_ 253 [0xFF]).pc := by
  refine ⟨by decide, by decide, fun k => ?_⟩
  cases k <;> decide

theorem witness_InvalidRegisterOperandIsRaisedFirst :
    8 ≤ (8 : Byte).toNat ∧ 8 ≤ (255 : Byte).toNat ∧ ((7 : Byte).toNat < 8 ∧ 8 ≤ (8 : Byte).toNat) ∧
    (Instr.wellFormed (.cmp 7 7) = true ∧ (at10 []).run = .running ∧ ∃ t, exec (.cmp 7 7) (at10 []) = .next t) :=
  ⟨by decide, by decide, by decide, by decide, by decide, _, rfl⟩

theorem witness_FaultingStepChangesOnlyTheRunState : ∃ t, step (pushing 0 42) = .next t ∧ t.isFaulted :=
  ⟨_, rfl, _, rfl⟩

/-- One state for each item of R165, and one without error. -/
theorem witness_StepReportsTheFirstError :
    firstError (at_ 254 [0xFF]) = some (.addressing, 256) ∧ firstError (at10 [0xFF]) = some (.decode, 255) ∧
    firstError (at10 [0xA0, 7, 8]) = some (.invalidRegister, 8) ∧
    firstError (pushing 0 42) = some (.addressing, -1) ∧ firstError (pushing 1 42) = none := by decide

theorem witness_UnsupportedOperationIsNeverRaised :
    ∃ t f, step (pushing 0 42) = .next t ∧ t.run = .faulted f := ⟨_, _, rfl, rfl⟩

theorem witness_OnlyHltHalts : ∃ t, step (at_ 253 [0x01]) = .next t ∧ t.run = .halted := ⟨_, rfl, rfl⟩

theorem witness_PcIsUpdatedAsTabled : ∃ t, exec (.call 7) (pushing 1 42) = .next t ∧ t.run = .running :=
  ⟨_, rfl, rfl⟩

theorem witness_not_faulted {t : State} (h : t.run = .running) : ¬ t.isFaulted := by
  rintro ⟨f, hf⟩
  simp [h] at hf

theorem witness_MemoryContract : ((-1 : Int) < 0 ∨ ((at10 []).cfg.memSize : Int) ≤ -1) ∧
    ((256 : Int) < 0 ∨ ((at10 []).cfg.memSize : Int) ≤ 256) ∧ (255 : Nat) < (at10 []).cfg.memSize := by decide

theorem witness_RegisterFileContract : 8 ≤ (8 : Byte).toNat ∧ (7 : Byte).toNat < 8 := by decide

/-- The template's clauses, for every mnemonic: its opcode byte in the last window of memory, and past it. -/
theorem witness_template : ∀ k : Mnemonic,
    ((at_ 253 [defaultOpcodes.byteOf k]).cfg.valid = true ∧ (at_ 253 [defaultOpcodes.byteOf k]).run = .running ∧
      (at_ 253 [defaultOpcodes.byteOf k]).pc + 2 < (at_ 253 [defaultOpcodes.byteOf k]).cfg.memSize ∧
      (at_ 253 [defaultOpcodes.byteOf k]).mem.read 253 = (at_ 253 [defaultOpcodes.byteOf k]).cfg.opcodes.byteOf k) ∧
    ((at_ 254 [defaultOpcodes.byteOf k]).run = .running ∧
      (at_ 254 [defaultOpcodes.byteOf k]).mem.read 254 = (at_ 254 [defaultOpcodes.byteOf k]).cfg.opcodes.byteOf k ∧
      (at_ 254 [defaultOpcodes.byteOf k]).cfg.memSize ≤ (at_ 254 [defaultOpcodes.byteOf k]).pc + 2) := by
  intro k; cases k <;> decide

theorem witness_template_registers : firstInvalid [8] = some 8 ∧ firstInvalid [7, 8] = some 8 ∧
    firstInvalid [9, 8] = some 9 := by decide

/-- A pushing state in 16 cells of memory. -/
def pushingSmall (sp : Byte) : State := small (reg 7 sp (at_ 0 [0x45, 0]))

/-- PUSH, CALL and the push primitive: stack pointers 1, `MEM_SIZE`, 0 and `MEM_SIZE` + 1; and a pc whose
successor but one still fits a byte. -/
theorem witness_push_clauses :
    (1 ≤ (pushing 1 42).sp ∧ (pushing 1 42).sp ≤ (pushing 1 42).cfg.memSize) ∧
    (1 ≤ (pushingSmall 16).sp ∧ (pushingSmall 16).sp ≤ (pushingSmall 16).cfg.memSize) ∧
    (pushing 0 42).sp = 0 ∧ (pushingSmall 17).cfg.memSize < (pushingSmall 17).sp ∧
    (at_ 253 [0x50, 1]).pc + 2 < 256 := by decide

/-- POP, RET and the pop primitive: the last stack pointer with a successor, the first without, and one
outside memory; for `POP R7` the popped bytes 254 and 255. -/
theorem witness_pop_clauses :
    ((pushing 254 0).cfg.memSize ≤ 256 ∧ (pushing 254 0).sp + 1 < (pushing 254 0).cfg.memSize) ∧
    ((pushing 255 0).sp < (pushing 255 0).cfg.memSize ∧ (pushing 255 0).cfg.memSize ≤ (pushing 255 0).sp + 1) ∧
    ((pushingSmall 16).cfg.memSize ≤ 256 ∧ (pushingSmall 16).cfg.memSize ≤ (pushingSmall 16).sp) ∧
    (((byte 255 254 (pushing 255 0)).mem.read (pushing 255 0).sp).toNat + 1 < (pushing 255 0).cfg.memSize) ∧
    ((pushing 255 0).cfg.memSize ≤ ((byte 255 255 (pushing 255 0)).mem.read (pushing 255 0).sp).toNat + 1) ∧
    PopDest.pc ≠ .reg 7 ∧ PopDest.reg 6 ≠ .reg 7 := by decide

/-- JEQ and JNE: E set and E clear. -/
theorem witness_jump_clauses : (lge false false true (at10 [])).flags.equal = true ∧
    (lge true false false (at10 [])).flags.equal = false := by decide

theorem witness_PopGivesBackWhatPushStored : (0 : RegIndex) ≠ 7 ∧ (6 : RegIndex) ≠ 7 ∧ (0 : RegIndex) ≠ 6 ∧
    (pushing 1 42).cfg.memSize ≤ 256 ∧ (1 ≤ (pushing 1 42).sp ∧ (pushing 1 42).sp < (pushing 1 42).cfg.memSize) ∧
    (2 ≤ (pushing 255 42).sp ∧ (pushing 255 42).sp < (pushing 255 42).cfg.memSize) ∧ 2 ≤ (pushing 2 42).sp := by
  decide

theorem witness_RetComesBackAfterTheCall : (at_ 253 [0x50, 1]).cfg.valid = true ∧
    (at_ 253 [0x50, 1]).pc + 2 < (at_ 253 [0x50, 1]).cfg.memSize ∧ 1 ≤ (at_ 253 [0x50, 1]).sp ∧
    (at_ 253 [0x50, 1]).sp < (at_ 253 [0x50, 1]).cfg.memSize ∧
    ∃ t, exec (.call 1) (at_ 253 [0x50, 1]) = .next t ∧ t.cfg = (at_ 253 [0x50, 1]).cfg :=
  ⟨by decide, by decide, by decide, by decide, _, rfl, rfl⟩

/-- The statements about every instruction's next state: Compare, another instruction, PRN, and a store. -/
theorem witness_next_states : (∃ t, exec (.cmp 0 1) (at10 []) = .next t) ∧ (∃ t, exec .hlt (at10 []) = .next t) ∧
    (∃ t, exec (.prn 0) (at10 []) = .next t) ∧ (∃ t, exec (.push 0) (pushing 1 42) = .next t) :=
  ⟨⟨_, rfl⟩, ⟨_, rfl⟩, ⟨_, rfl⟩, _, rfl⟩

theorem witness_OnlyConditionalJumpsReadTheFlags : Instr.mnemonic (.cmp 0 1) ≠ .jeq ∧
    Instr.mnemonic (.cmp 0 1) ≠ .jne ∧ ∃ t, exec (.cmp 0 1) (at10 []) = .next t :=
  ⟨by decide, by decide, _, rfl⟩

theorem witness_LessAndGreaterAreNeverRead : ∃ t, step (lge true false false (at10 [0x55, 0])) = .next t := ⟨_, rfl⟩

theorem witness_OnlyTabledRegistersAreWritten : (6 : RegIndex).val ∉ writtenRegs (.pop 0) ∧
    ∃ t, exec (.pop 0) (at10 []) = .next t := ⟨by decide, _, rfl⟩

/-- Two states that differ in R2 only, which PUSH R0 does not read. -/
theorem witness_OnlyTabledRegistersAreRead :
    (∀ r : RegIndex, r.val ∈ readRegs (.push 0) → (reg 2 9 (pushing 1 42)).readReg r = (pushing 1 42).readReg r) ∧
    (reg 2 9 (pushing 1 42)).readReg 2 ≠ (pushing 1 42).readReg 2 ∧
    ∃ t, exec (.push 0) (pushing 1 42) = .next t := ⟨by decide, by decide, _, rfl⟩

theorem witness_OnlyTheStackInstructionsReachMemory : usesStack (.ldi 0 1) = false ∧
    ∃ t, exec (.ldi 0 1) (at10 []) = .next t := ⟨by decide, _, rfl⟩

theorem witness_StoredBytesAreSeenByLaterFetches : (253 : Nat) + 2 < (pushing 255 42).cfg.memSize ∧
    254 ∈ storedAt (.push 0) (pushing 255 42) ∧ 253 ∉ storedAt (.push 0) (pushing 255 42) ∧
    ∃ t, exec (.push 0) (pushing 255 42) = .next t := ⟨by decide, by decide, by decide, _, rfl⟩

/-- Transfers that complete to the last address of memory, where no window fits: JMP, and CALL with its stack
pointer at 1. -/
theorem witness_unchecked_targets :
    (Instr.wellFormed (.jmp 0) = true ∧ stackError (.jmp 0) (reg 0 255 (at10 [])) = none ∧
      nextPc (.jmp 0) (reg 0 255 (at10 [])) = 255) ∧
    (Instr.mnemonic (.call 0) ∈ [Mnemonic.call, .ret, .jmp, .jeq, .jne] ∧ Instr.wellFormed (.call 0) = true ∧
      stackError (.call 0) (reg 7 1 (reg 0 255 (at10 []))) = none ∧
      nextPc (.call 0) (reg 7 1 (reg 0 255 (at10 []))) = 255) := by decide

theorem witness_TargetsAreCheckedAtTheNextFetch :
    Instr.mnemonic (.jmp 0) ∈ [Mnemonic.call, .ret, .jmp, .jeq, .jne] ∧ (reg 0 254 (at10 [])).run = .running ∧
    ∃ t, exec (.jmp 0) (reg 0 254 (at10 [])) = .next t ∧ t.run = .running ∧ t.cfg.memSize ≤ t.pc + 2 :=
  ⟨by decide, by decide, _, rfl, rfl, by decide⟩

theorem witness_LoadPlacesTheImage : ([1, 2, 3] : List Byte).length ≤ (at_ 0 []).cfg.memSize ∧
    (small (at_ 0 [])).cfg.memSize < (List.replicate 17 (1 : Byte)).length ∧
    (List.replicate 16 (1 : Byte)).length ≤ (small (at_ 0 [])).cfg.memSize := by decide

theorem witness_spells : Spells ['1', '0', '1'] 5 := .snocOne (ds := ['1', '0']) (n := 2) (.snocZero (ds := ['1']) (n := 1) .one)

/-- A blank line, and ` 101 #x`. -/
theorem witness_LinesGive : LinesGive [[], [' ', '1', '0', '1', ' ', '#', 'x']] [5] :=
  .blank (w := []) (tail := []) (by simp [Blank]) (.inl rfl) (by simp)
    (.literal (w := [' ']) (ds := ['1', '0', '1']) (w' := [' ']) (tail := ['#', 'x']) (n := 5)
      (by simp [Blank, isSpace]) witness_spells (by decide) (by simp [Blank, isSpace]) (.inr ⟨['x'], rfl⟩)
      (by decide) .none)

theorem witness_BadLine : BadLine ['1', '2'] :=
  ⟨[], ['1', '2'], [], [], rfl, by simp [Blank], by simp [Blank], .inl rfl, by decide, by decide, by simp [isSpace],
    .inl ⟨'2', by decide, by decide, by decide⟩⟩

theorem witness_ImageTextIsReadLineByLine : parseSource ['1', '\n'] = .ok [1] := by decide

end Sys2Proof.Tests
end

section
/-! The memory contract of R40: what MemWrite answers, and the frame of storing one byte. -/

namespace Sys2Proof.Machine

theorem memWrite_error {s : State} {addr : Int} {v : Byte} {e : CoreError} :
    s.memWrite addr v = .error e ↔
      e = { kind := .addressing, info := addr } ∧ (addr < 0 ∨ (s.cfg.memSize : Int) ≤ addr) := by
  rw [← checkAddress_error]
  unfold State.memWrite
  cases s.checkAddress addr <;> simp

/-- A store leaves every other cell alone (R45). -/
theorem sameBytesBut_write (s : State) (a : Nat) (v : Byte) :
    SameBytesBut [a] s { s with mem := s.mem.write a v } :=
  fun _ hb => Memory.read_write_ne s.mem v (List.ne_of_not_mem_cons hb)

theorem sameRegsBut_withMem (l : List RegIndex) (s : State) (m : Memory) :
    SameRegsBut l s { s with mem := m } := fun r _ => s.withMem_readReg r m

/-- Settles O20: outside `[0, MEM_SIZE)` both accesses raise what the range check raises; inside, the write is the
store of one byte, whose frame stands above. -/
theorem memoryContract : Obligations.MemoryContract := by
  unfold Obligations.MemoryContract
  refine ⟨rfl, fun s addr v => ⟨fun hout => ?outside, ?inside⟩⟩
  case outside => exact ⟨memRead_error.mpr ⟨rfl, hout⟩, memWrite_error.mpr ⟨rfl, hout⟩⟩
  case inside =>
    rintro a rfl ha
    exact ⟨memRead_of_lt ha, _, memWrite_of_lt ha, Memory.read_write_same s.mem a v,
      sameBytesBut_write s a v, sameRegsBut_withMem [] s _, rfl, rfl, ⟨rfl, rfl, rfl⟩⟩

end Sys2Proof.Machine
end

section
/-! Decoding by the opcode byte (R66) and the step it selects (R88). -/

namespace Sys2Proof

theorem decodeWindow_of_select {m : OpcodeMap} {op : Byte} {k : Mnemonic} (h : m.select op = some k) (a b : Byte) :
    decodeWindow m op a b = .ok (k.instr a b) := decodeWindow_ok.mpr ⟨k, h, rfl⟩

/-- A window decodes to an instruction of the selected mnemonic and of no other. -/
theorem decodeWindow_mnemonic_iff {m : OpcodeMap} {op a b : Byte} {k : Mnemonic} :
    (∃ i, decodeWindow m op a b = .ok i ∧ i.mnemonic = k) ↔ m.select op = some k := by
  constructor
  · rintro ⟨i, hi, rfl⟩
    obtain ⟨k', hk', rfl⟩ := decodeWindow_ok.mp hi
    rwa [k'.instr_mnemonic]
  · exact fun h => ⟨_, decodeWindow_of_select h a b, k.instr_mnemonic a b⟩

/-- Format N ignores both operand bytes (R60, R63). -/
theorem Mnemonic.instr_of_format_n {k : Mnemonic} (h : k.format = .n) (a b a' b' : Byte) :
    k.instr a b = k.instr a' b' := by
  cases k
  case hlt | ret => rfl
  all_goals nomatch h

/-- Format R ignores operand_b (R60, R63). -/
theorem Mnemonic.instr_of_format_r {k : Mnemonic} (h : k.format = .r) (a b b' : Byte) :
    k.instr a b = k.instr a b' := by
  cases k
  case push | pop | prn | call | jmp | jeq | jne => rfl
  all_goals nomatch h

end Sys2Proof

namespace Sys2Proof.Machine

theorem step_of_select {s : State} {k : Mnemonic} (hrun : s.run = .running) (hw : s.pc + 2 < s.cfg.memSize)
    (hk : s.cfg.opcodes.select (s.mem.read s.pc) = some k) :
    step s = exec (k.instr (s.mem.read (s.pc + 1)) (s.mem.read (s.pc + 2))) s := by
  rcases step_running hrun with ⟨hle, -⟩ | ⟨-, hnone, -⟩ | ⟨-, k', hk', hstep⟩
  · exact absurd hw (Nat.not_lt.mpr hle)
  · simp [hk] at hnone
  · obtain rfl : k = k' := Option.some.inj (hk.symm.trans hk')
    exact hstep

theorem step_of_select_none {s : State} (hrun : s.run = .running) (hw : s.pc + 2 < s.cfg.memSize)
    (hk : s.cfg.opcodes.select (s.mem.read s.pc) = none) :
    step s = .next (faultState s .decode ((s.mem.read s.pc).toNat : Int)) := by
  rcases step_running hrun with ⟨hle, -⟩ | ⟨-, -, hstep⟩ | ⟨-, k, hsome, -⟩
  · exact absurd hw (Nat.not_lt.mpr hle)
  · exact hstep
  · simp [hk] at hsome

theorem step_of_window_out {s : State} (hrun : s.run = .running) (hw : s.cfg.memSize ≤ s.pc + 2) :
    step s = .next (faultState s .addressing ((max s.pc s.cfg.memSize : Nat) : Int)) := by
  rcases step_running hrun with ⟨-, hstep⟩ | ⟨hlt, -⟩ | ⟨hlt, -⟩
  · exact hstep
  · exact absurd hlt (Nat.not_lt.mpr hw)
  · exact absurd hlt (Nat.not_lt.mpr hw)

/-- Settles O7: both directions of "exactly one" are `OpcodeMap.select_eq_some`, and a byte that selects no
mnemonic raises DecodeError. -/
theorem opcodeByteIsMatchedWhole : Obligations.OpcodeByteIsMatchedWhole := by
  unfold Obligations.OpcodeByteIsMatchedWhole
  refine ⟨fun m op a b k => decodeWindow_mnemonic_iff.trans (m.select_eq_some op k), fun s hrun hw hno => ?_⟩
  have hnone : s.cfg.opcodes.select (s.mem.read s.pc) = none :=
    Option.eq_none_iff_forall_ne_some.mpr fun k hk => hno ⟨k, (OpcodeMap.select_eq_some _ _ k).mp hk⟩
  exact step_of_select_none hrun hw hnone

end Sys2Proof.Machine
end

section
/-! One instruction executed with another memory: only the byte it loads can change its result. -/

namespace Sys2Proof.Machine

/-- What an instruction can leave without an error is what executing it answers: the converse of
`exec_next_cases`. -/
theorem Completed.exec_eq {s t : State} {ins : Instr} (h : Completed s ins t) : exec ins s = .next t := by
  cases h with
  | hlt => exact exec_hlt s
  | ret hsp hnext => rw [exec_ret, stackPop_of_room hsp hnext, commit_ok]
  | push i ha hlow hhigh => rw [exec_push s ha, stackPush_of_room _ hlow hhigh, commit_ok]
  | pop i ha hsp hnext => rw [exec_pop s ha, stackPop_of_room hsp hnext, commit_ok]
  | prn i ha => exact exec_prn s ha
  | call i ha hlow hhigh => rw [exec_call s ha, stackPush_of_room _ hlow hhigh, commit_ok]
  | jmp i ha => exact exec_jmp s ha
  | jeq i ha => exact exec_jeq s ha
  | jne i ha => exact exec_jne s ha
  | ldi i ha => exact exec_ldi s _ ha
  | add i j ha hb => exact exec_add s ha hb
  | mul i j ha hb => exact exec_mul s ha hb
  | cmp i j ha hb => exact exec_cmp s ha hb

theorem popBase_withMem {s : State} {m : Memory} (h : m.read s.sp = s.mem.read s.sp) (dest : PopDest) :
    popBase { s with mem := m } dest = popBase s dest := by
  simp only [State.sp] at h
  simp [popBase, h]

/-- A pop reads memory at the stack pointer alone. -/
theorem popped_withMem {s : State} {m : Memory} (h : m.read s.sp = s.mem.read s.sp) (dest : PopDest) :
    popped { s with mem := m } dest = { popped s dest with mem := m } := by
  simp only [popped, popBase_withMem h]
  simp only [State.sp] at h
  cases dest <;> simp [PopDest.put, State.writeReg, State.setPc, h]

theorem Memory.read_write_congr {m m' : Memory} {b : Nat} (h : m.read b = m'.read b) (a : Nat) (v : Byte) :
    (m.write a v).read b = (m'.write a v).read b := by
  simp only [Memory.read_write, h]

/-- With another memory that holds the same byte where the instruction loads, it completes alike, and the two
resulting memories agree wherever the two memories did. -/
theorem Completed.withMem {s t : State} {ins : Instr} (h : Completed s ins t) {m : Memory}
    (hload : ∀ a ∈ loadedAt ins.mnemonic s, m.read a = s.mem.read a) :
    ∃ m' : Memory, Completed { s with mem := m } ins { t with mem := m' } ∧
      ∀ a, m.read a = s.mem.read a → m'.read a = t.mem.read a := by
  cases h with
  | hlt => exact ⟨m, .hlt, fun _ ha => ha⟩
  | ret hsp hnext =>
    have htop : m.read s.sp = s.mem.read s.sp := hload _ (List.mem_singleton.mpr rfl)
    refine ⟨m, ?_, fun a ha => by simpa using ha⟩
    rw [← popped_withMem htop]
    exact .ret hsp (by rwa [popBase_withMem htop])
  | push i ha hlow hhigh => exact ⟨_, .push i ha hlow hhigh, fun _ h => Memory.read_write_congr h _ _⟩
  | pop i ha hsp hnext =>
    have htop : m.read s.sp = s.mem.read s.sp := hload _ (List.mem_singleton.mpr rfl)
    refine ⟨m, ?_, fun a ha => by simpa using ha⟩
    have hc := Completed.pop (s := { s with mem := m }) i ha hsp (by rwa [popBase_withMem htop])
    rwa [popped_withMem htop] at hc
  | prn i ha => exact ⟨m, .prn i ha, fun _ h => h⟩
  | call i ha hlow hhigh => exact ⟨_, .call i ha hlow hhigh, fun _ h => Memory.read_write_congr h _ _⟩
  | jmp i ha => exact ⟨m, .jmp i ha, fun _ h => h⟩
  | jeq i ha => exact ⟨m, .jeq i ha, fun _ h => h⟩
  | jne i ha => exact ⟨m, .jne i ha, fun _ h => h⟩
  | ldi i ha => exact ⟨m, .ldi i ha, fun _ h => h⟩
  | add i j ha hb => exact ⟨m, .add i j ha hb, fun _ h => h⟩
  | mul i j ha hb => exact ⟨m, .mul i j ha hb, fun _ h => h⟩
  | cmp i j ha hb => exact ⟨m, .cmp i j ha hb, fun _ h => h⟩

/-- The same for every outcome: an error that is raised is raised with the other memory as well. -/
theorem exec_withMem {s t : State} {ins : Instr} {m : Memory} (h : exec ins s = .next t)
    (hload : ∀ a ∈ loadedAt ins.mnemonic s, m.read a = s.mem.read a) :
    ∃ m' : Memory, exec ins { s with mem := m } = .next { t with mem := m' } ∧
      ∀ a, m.read a = s.mem.read a → m'.read a = t.mem.read a := by
  rcases exec_alike ins s { s with mem := m } rfl (fun _ => rfl) hload with
    ⟨e, he, he'⟩ | ⟨u, -, hu, -, hc, -⟩
  · obtain rfl : t = s.raise e := by simpa [h] using he
    exact ⟨m, he', fun _ ha => ha⟩
  · obtain rfl : t = u := by simpa [h] using hu
    obtain ⟨m', hc', hm'⟩ := hc.withMem hload
    exact ⟨m', hc'.exec_eq, hm'⟩

end Sys2Proof.Machine
end

section
/-! Ignored window bytes (R63). -/

namespace Sys2Proof.Machine

theorem pc_not_mem_ignoredAt (k : Mnemonic) (pc : Nat) : pc ∉ ignoredAt k pc := by
  unfold ignoredAt
  cases k.format <;> simp

/-- Windows that differ in ignored bytes only give one instruction. -/
theorem instr_of_ignored {k : Mnemonic} {m m' : Memory} {pc : Nat}
    (h : ∀ a, a ∉ ignoredAt k pc → m'.read a = m.read a) :
    k.instr (m'.read (pc + 1)) (m'.read (pc + 2)) = k.instr (m.read (pc + 1)) (m.read (pc + 2)) := by
  cases hf : k.format with
  | rr | ri =>
    have hnone : ignoredAt k pc = [] := by simp [ignoredAt, hf]
    rw [h (pc + 1) (by simp [hnone]), h (pc + 2) (by simp [hnone])]
  | r =>
    have ha : pc + 1 ∉ ignoredAt k pc := by simp [ignoredAt, hf]
    rw [h (pc + 1) ha]
    exact k.instr_of_format_r hf _ _ _
  | n => exact k.instr_of_format_n hf _ _ _ _

/-- With other values in the ignored bytes, none of which the instruction loads, the step does the same to
everything but those bytes. -/
theorem step_withMem_of_ignored {s t : State} {m : Memory} {k : Mnemonic} (hrun : s.run = .running)
    (hw : s.pc + 2 < s.cfg.memSize) (hk : s.cfg.opcodes.select (s.mem.read s.pc) = some k)
    (hm : ∀ a, a ∉ ignoredAt k s.pc → m.read a = s.mem.read a)
    (hload : ∀ a ∈ loadedAt k s, a ∉ ignoredAt k s.pc) (h : step s = .next t) :
    ∃ m' : Memory, step { s with mem := m } = .next { t with mem := m' } ∧
      ∀ a, a ∉ ignoredAt k s.pc → m'.read a = t.mem.read a := by
  have hk' : s.cfg.opcodes.select (m.read s.pc) = some k := by rwa [hm _ (pc_not_mem_ignoredAt k s.pc)]
  have hstep : step { s with mem := m } =
      exec (k.instr (m.read (s.pc + 1)) (m.read (s.pc + 2))) { s with mem := m } := step_of_select hrun hw hk'
  rw [step_of_select hrun hw hk] at h
  obtain ⟨m', he, hm'⟩ := exec_withMem (m := m) h fun a ha => hm a (hload a (by rwa [k.instr_mnemonic] at ha))
  exact ⟨m', by rw [hstep, instr_of_ignored hm, he], fun a ha => hm' a (hm a ha)⟩

/-- Settles O8: the decoder drops the ignored bytes, so the step runs the same instruction, which reads no
memory but the byte it loads; a window past memory is refused before it is decoded. -/
theorem ignoredBytesHaveNoValueButAnAddress : Obligations.IgnoredBytesHaveNoValueButAnAddress := by
  unfold Obligations.IgnoredBytesHaveNoValueButAnAddress
  refine ⟨?formatN, ?formatR, ?steps, ?window⟩
  case formatN =>
    intro m op a b a' b' k hk hf
    rw [decodeWindow_of_select hk, decodeWindow_of_select hk, k.instr_of_format_n hf a b a' b']
  case formatR =>
    intro m op a b b' k hk hf
    rw [decodeWindow_of_select hk, decodeWindow_of_select hk, k.instr_of_format_r hf a b b']
  case steps =>
    intro s t m k hrun hw hk hm hload h
    obtain ⟨m', he, hm'⟩ := step_withMem_of_ignored hrun hw hk hm hload h
    exact ⟨_, he, rfl, hm'⟩
  case window =>
    exact fun s hrun hw => ⟨_, by omega, step_of_window_out hrun hw⟩

end Sys2Proof.Machine
end

section
/-! What a completed instruction leaves: its run state and its pc (R28, R87). -/

namespace Sys2Proof.Machine

/-- A completed instruction keeps the run state, except that HLT halts (R28). -/
theorem Completed.run_eq_or_halted {s t : State} {ins : Instr} (h : Completed s ins t) :
    t.run = s.run ∨ t.run = .halted := by
  cases h with
  | hlt => exact .inr rfl
  | ret | push | pop | prn | call | jmp | jeq | jne | ldi | add | mul | cmp => exact .inl (by simp)

/-- No instruction that completes from a Running state leaves a Faulted one. -/
theorem Completed.not_isFaulted {s t : State} {ins : Instr} (h : Completed s ins t) (hrun : s.run = .running) :
    ¬ t.isFaulted := by
  rintro ⟨f, hf⟩
  rcases h.run_eq_or_halted with ht | ht <;> simp [ht, hrun] at hf

theorem State.raise_isFaulted (s : State) (e : CoreError) : (s.raise e).isFaulted := ⟨_, rfl⟩

theorem regByte_of_index {a : Byte} {i : RegIndex} (ha : a.toNat = i.val) (s : State) :
    s.regByte a = s.readReg i := by
  obtain ⟨n, hn⟩ := i
  subst ha
  simp [State.regByte, hn]

theorem eq_spIndex_iff {a : Byte} {i : RegIndex} (ha : a.toNat = i.val) : i = spIndex ↔ a.toNat = 7 := by
  rw [ha]
  exact Fin.ext_iff

/-- A register as CALL reads it, after the push: R7 holds the decremented stack pointer (R140). -/
theorem pushed_readReg_toNat {a : Byte} {i : RegIndex} (ha : a.toNat = i.val) (s : State)
    (value : State → Byte) :
    ((pushed s value).readReg i).toNat = if a.toNat = 7 then s.sp - 1 else (s.regByte a).toNat := by
  have hsp : s.sp - 1 < 2 ^ 8 := Nat.lt_of_le_of_lt (Nat.sub_le _ _) (s.readReg spIndex).isLt
  simp only [pushed_readReg, eq_spIndex_iff ha, regByte_of_index ha]
  split
  · exact Nat.mod_eq_of_lt hsp
  · rfl

/-- A completed instruction's pc is the tabled one (R87). -/
theorem Completed.pc_eq_nextPc {s t : State} {ins : Instr} (h : Completed s ins t) : t.pc = nextPc ins s := by
  cases h with
  | call i ha => exact pushed_readReg_toNat ha s returnAddress
  | jmp i ha | jeq i ha | jne i ha => simp [nextPc, regByte_of_index ha]
  | hlt | ret | push | pop | prn | ldi | add | mul | cmp => rfl

/-- Settles O19: what does not fault has completed, and a completed instruction has the tabled pc. -/
theorem pcIsUpdatedAsTabled : Obligations.PcIsUpdatedAsTabled := by
  unfold Obligations.PcIsUpdatedAsTabled
  intro i s t h hok
  rcases exec_next_cases h with hc | ⟨e, rfl, -⟩
  · exact hc.pc_eq_nextPc
  · exact absurd (s.raise_isFaulted e) hok

/-- Settles O15: a step that did not raise an error completed an instruction from a Running state, which leaves
no Faulted one; what raised it left `State.raise`. -/
theorem faultingStepChangesOnlyTheRunState : Obligations.FaultingStepChangesOnlyTheRunState := by
  unfold Obligations.FaultingStepChangesOnlyTheRunState
  intro s t h hfault
  obtain ⟨hrun, ⟨e, rfl, -⟩ | ⟨k, ins, -, -, -, hc⟩⟩ := step_next_cases h
  · exact ⟨e.kind, e.info, rfl, step_faulted rfl⟩
  · exact absurd hfault (hc.not_isFaulted hrun)

end Sys2Proof.Machine
end

section
/-! The errors before execution: the window (R81) and the opcode (R82). -/

namespace Sys2Proof

theorem OpcodeMap.select_eq_none {m : OpcodeMap} {op : Byte} (h : ∀ k, m.byteOf k ≠ op) : m.select op = none :=
  Option.eq_none_iff_forall_ne_some.mpr fun k hk => h k ((m.select_eq_some op k).mp hk).1

end Sys2Proof

namespace Sys2Proof.Machine

/-- Settles O12: the first address that does not exist is the larger of the pc and `MEM_SIZE`, and each range of
the pc says which window address that is. -/
theorem fetchChecksTheWholeWindow : Obligations.FetchChecksTheWholeWindow := by
  unfold Obligations.FetchChecksTheWholeWindow
  intro s hrun
  refine ⟨fun hpc => ?first, fun hin hout => ?second, fun hin hout => ?third, fetchWindow_of_lt⟩
  case first =>
    rw [step_of_window_out hrun (by omega), Nat.max_eq_left hpc]
  case second =>
    have hmissing : max s.pc s.cfg.memSize = s.pc + 1 := by omega
    rw [step_of_window_out hrun (by omega), hmissing, Nat.cast_add, Nat.cast_one]
  case third =>
    have hmissing : max s.pc s.cfg.memSize = s.pc + 2 := by omega
    rw [step_of_window_out hrun hout, hmissing, Nat.cast_add, Nat.cast_ofNat]

/-- Settles O13: such a byte selects no mnemonic, and the step then raises DecodeError of it. -/
theorem unknownOpcodeRaisesDecodeError : Obligations.UnknownOpcodeRaisesDecodeError := by
  unfold Obligations.UnknownOpcodeRaisesDecodeError
  exact fun s hrun hw hno => step_of_select_none hrun hw (OpcodeMap.select_eq_none hno)

end Sys2Proof.Machine
end

section
/-! Execution with valid register operands (R85): the stack check alone decides whether the instruction raises
an error, and that error is an AddressingError (R165 item 4). -/

namespace Sys2Proof

/-- Every register operand of a well-formed instruction names a register (R85). -/
theorem Instr.index_of_wellFormed {i : Instr} (h : i.wellFormed = true) (v : Byte) (hv : v ∈ i.regOperands) :
    ∃ r : RegIndex, v.toNat = r.val :=
  ⟨⟨v.toNat, of_decide_eq_true (List.all_eq_true.mp h v hv)⟩, rfl⟩

end Sys2Proof

namespace Sys2Proof.Machine

/-- The address a pop raises AddressingError with, if any (R133): the stack pointer, or the successor of the
byte it increments. -/
def popError (s : State) (dest : PopDest) : Option Int :=
  if s.cfg.memSize ≤ s.sp then some (s.sp : Int)
  else if s.cfg.memSize ≤ popBase s dest + 1 then some ((popBase s dest : Int) + 1)
  else none

theorem stackError_ret (s : State) : stackError .ret s = popError s .pc := rfl

theorem stackError_pop {a : Byte} {i : RegIndex} (ha : a.toNat = i.val) (s : State) :
    stackError (.pop a) s = popError s (.reg i) := by
  simp [stackError, popError, popBase, State.sp, eq_spIndex_iff ha]

/-- CALL makes PUSH's stack check (R132). -/
theorem stackError_call (a : Byte) (s : State) : stackError (.call a) s = stackError (.push a) s := rfl

theorem stackError_push_none {a : Byte} {s : State} (h : stackError (.push a) s = none) :
    1 ≤ s.sp ∧ s.sp ≤ s.cfg.memSize := by
  simp only [stackError, ite_eq_right_iff, reduceCtorEq, imp_false] at h
  omega

theorem popError_none {s : State} {dest : PopDest} (h : popError s dest = none) :
    s.sp < s.cfg.memSize ∧ popBase s dest + 1 < s.cfg.memSize := by
  unfold popError at h
  split at h
  · nomatch h
  · split at h
    · nomatch h
    · omega

/-- With valid register operands and no stack error an instruction completes. -/
theorem completed_of_stackError_none {i : Instr} {s : State} (hwf : i.wellFormed = true)
    (h : stackError i s = none) : ∃ t, Completed s i t := by
  have index := Instr.index_of_wellFormed hwf
  cases i with
  | hlt => exact ⟨_, .hlt⟩
  | ret =>
    obtain ⟨hsp, hnext⟩ := popError_none (stackError_ret s ▸ h)
    exact ⟨_, .ret hsp hnext⟩
  | push a =>
    obtain ⟨r, hr⟩ := index a (.head _)
    obtain ⟨hlow, hhigh⟩ := stackError_push_none h
    exact ⟨_, .push r hr hlow hhigh⟩
  | call a =>
    obtain ⟨r, hr⟩ := index a (.head _)
    obtain ⟨hlow, hhigh⟩ := stackError_push_none (stackError_call a s ▸ h)
    exact ⟨_, .call r hr hlow hhigh⟩
  | pop a =>
    obtain ⟨r, hr⟩ := index a (.head _)
    obtain ⟨hsp, hnext⟩ := popError_none (stackError_pop hr s ▸ h)
    exact ⟨_, .pop r hr hsp hnext⟩
  | prn a => exact (index a (.head _)).imp' _ fun r hr => .prn r hr
  | jmp a => exact (index a (.head _)).imp' _ fun r hr => .jmp r hr
  | jeq a => exact (index a (.head _)).imp' _ fun r hr => .jeq r hr
  | jne a => exact (index a (.head _)).imp' _ fun r hr => .jne r hr
  | ldi a imm => exact (index a (.head _)).imp' _ fun r hr => .ldi r hr
  | add a b =>
    obtain ⟨r, hr⟩ := index a (.head _)
    obtain ⟨q, hq⟩ := index b (.tail _ (.head _))
    exact ⟨_, .add r q hr hq⟩
  | mul a b =>
    obtain ⟨r, hr⟩ := index a (.head _)
    obtain ⟨q, hq⟩ := index b (.tail _ (.head _))
    exact ⟨_, .mul r q hr hq⟩
  | cmp a b =>
    obtain ⟨r, hr⟩ := index a (.head _)
    obtain ⟨q, hq⟩ := index b (.tail _ (.head _))
    exact ⟨_, .cmp r q hr hq⟩

theorem stackPush_of_stackError {a : Byte} {s : State} {addr : Int} (h : stackError (.push a) s = some addr)
    (value : State → Byte) : s.stackPush value = .error { kind := .addressing, info := addr } := by
  simp only [stackError, Option.ite_none_right_eq_some, Option.some.injEq] at h
  obtain ⟨hout, rfl⟩ := h
  exact stackPush_of_no_room value hout

theorem stackPop_of_popError {s : State} {dest : PopDest} {addr : Int} (h : popError s dest = some addr) :
    s.stackPop dest = .error { kind := .addressing, info := addr } := by
  unfold popError at h
  split at h
  · next hsp =>
    obtain rfl := Option.some.inj h
    exact stackPop_of_sp_out dest hsp
  · next hsp =>
    obtain ⟨hnext, rfl⟩ := by simpa using h
    exact stackPop_of_next_out (Nat.not_le.mp hsp) hnext

/-- With valid register operands a stack error is what the instruction raises (R165 item 4). -/
theorem exec_of_stackError {i : Instr} {s : State} {addr : Int} (hwf : i.wellFormed = true)
    (h : stackError i s = some addr) : exec i s = .next (faultState s .addressing addr) := by
  have index := Instr.index_of_wellFormed hwf
  cases i with
  | push a =>
    obtain ⟨r, hr⟩ := index a (.head _)
    rw [exec_push s hr, stackPush_of_stackError h]
    rfl
  | call a =>
    obtain ⟨r, hr⟩ := index a (.head _)
    rw [exec_call s hr, stackPush_of_stackError (stackError_call a s ▸ h)]
    rfl
  | pop a =>
    obtain ⟨r, hr⟩ := index a (.head _)
    rw [exec_pop s hr, stackPop_of_popError (stackError_pop hr s ▸ h)]
    rfl
  | ret =>
    rw [exec_ret, stackPop_of_popError (stackError_ret s ▸ h)]
    rfl
  | hlt | prn | jmp | jeq | jne | ldi | add | mul | cmp => nomatch h

/-- Settles O14: the first three clauses are the instructions' answers on a byte that is no index; with valid
operands an instruction completes or raises its stack error, an AddressingError. -/
theorem invalidRegisterOperandIsRaisedFirst : Obligations.InvalidRegisterOperandIsRaisedFirst := by
  unfold Obligations.InvalidRegisterOperandIsRaisedFirst
  refine ⟨?oneOperand, ?operandA, ?operandB, ?valid⟩
  case oneOperand =>
    exact fun s a i ha hi => exec_invalid_a ha s i (.inl hi)
  case operandA =>
    intro s a b i ha hi
    refine exec_invalid_a ha s i (.inr ?_)
    rcases List.mem_cons.mp hi with rfl | hi
    · exact .inl ⟨b, rfl⟩
    · exact .inr ⟨b, hi⟩
  case operandB =>
    exact fun s a b i ha hb hi => exec_invalid_b (i := ⟨a.toNat, ha⟩) rfl hb s i hi
  case valid =>
    intro s t i hwf hrun h f hf
    cases hse : stackError i s with
    | none =>
      obtain ⟨u, hc⟩ := completed_of_stackError_none hwf hse
      obtain rfl : t = u := by simpa [hc.exec_eq] using h.symm
      exact absurd ⟨f, hf⟩ (hc.not_isFaulted hrun)
    | some addr =>
      obtain rfl : t = faultState s .addressing addr := by simpa [exec_of_stackError hwf hse] using h.symm
      obtain rfl := RunState.faulted.inj hf
      nofun

end Sys2Proof.Machine
end

section
/-! The template of the instruction rules (41_alu.md), for every mnemonic at once. -/

namespace Sys2Proof.Machine

theorem firstInvalid_singleton {a n : Byte} (h : firstInvalid [a] = some n) : 8 ≤ a.toNat ∧ n = a := by
  have hn : 8 ≤ n.toNat := of_decide_eq_true (List.find?_some (p := fun v : Byte => decide (8 ≤ v.toNat)) h)
  obtain rfl := List.mem_singleton.mp (List.mem_of_find?_eq_some h)
  exact ⟨hn, rfl⟩

/-- operand_a comes first (R85). -/
theorem firstInvalid_pair {a b n : Byte} (h : firstInvalid [a, b] = some n) :
    (8 ≤ a.toNat ∧ n = a) ∨ (a.toNat < 8 ∧ 8 ≤ b.toNat ∧ n = b) := by
  by_cases ha : 8 ≤ a.toNat
  · exact .inl ⟨ha, by simpa [firstInvalid, ha] using h.symm⟩
  · have hb : firstInvalid [b] = some n := by simpa [firstInvalid, ha] using h
    exact .inr ⟨Nat.not_le.mp ha, firstInvalid_singleton hb⟩

/-- An instruction with a register operand that names no register raises InvalidRegisterError of the first
such operand (R85). -/
theorem exec_of_firstInvalid {i : Instr} {n : Byte} (h : firstInvalid i.regOperands = some n) (s : State) :
    exec i s = .next (faultState s .invalidRegister (n.toNat : Int)) := by
  cases i with
  | hlt | ret => nomatch h
  | push a | pop a | prn a | call a | jmp a | jeq a | jne a =>
    obtain ⟨ha, rfl⟩ := firstInvalid_singleton h
    exact exec_invalid_a ha s _ (.inl (by simp))
  | ldi a imm =>
    obtain ⟨ha, rfl⟩ := firstInvalid_singleton h
    exact exec_invalid_a ha s _ (.inr (.inl ⟨imm, rfl⟩))
  | add a b | mul a b | cmp a b =>
    rcases firstInvalid_pair h with ⟨ha, rfl⟩ | ⟨ha, hb, rfl⟩
    · exact exec_invalid_a ha s _ (.inr (.inr ⟨b, by simp⟩))
    · exact exec_invalid_b (i := ⟨a.toNat, ha⟩) rfl hb s _ (by simp)

/-- Every mnemonic follows the template: its byte selects it, a window that leaves memory is refused before it
is decoded, and the first invalid register operand is refused before execution. -/
theorem followsTemplate (k : Mnemonic) : FollowsTemplate k k.instr (fun a b => (k.instr a b).regOperands) where
  encoding s hcfg hrun hw hop := by
    have hdistinct : s.cfg.opcodes.distinct = true := (Bool.and_eq_true_iff.mp hcfg).2
    exact step_of_select hrun hw (hop ▸ OpcodeMap.select_byteOf hdistinct k)
  window _ hrun _ hout := step_of_window_out hrun hout
  registers s _ _ _ hn := exec_of_firstInvalid hn s

end Sys2Proof.Machine
end

section
/-! The ALU instructions (R100 to R102): the frame of writing one register, the two wrapped results, and the
three flags of the unsigned comparison. -/

namespace Sys2Proof.Machine

@[simp] theorem wrap_toNat (n : Nat) : (wrap n).toNat = n % 256 := BitVec.toNat_ofNat n 8

/-- Writing one register and moving the pc leaves the other registers alone (R21). -/
theorem sameRegsBut_writeReg_setPc (s : State) (i : RegIndex) (v : Byte) (n : Nat) :
    SameRegsBut [i] s ((s.writeReg i v).setPc n) :=
  fun r hr => State.readReg_writeReg_ne s i r v (List.ne_of_not_mem_cons hr)

theorem compareFlags_less_iff (u v : Byte) : (compareFlags u v).less = true ↔ u.toNat < v.toNat :=
  decide_eq_true_iff

theorem compareFlags_greater_iff (u v : Byte) : (compareFlags u v).greater = true ↔ v.toNat < u.toNat :=
  decide_eq_true_iff

theorem compareFlags_equal_iff (u v : Byte) : (compareFlags u v).equal = true ↔ u = v :=
  decide_eq_true_iff.trans BitVec.toNat_inj

/-- Settles O22: ADD follows the template, and its ALU result is one register write of the wrapped sum. -/
theorem addStoresTheWrappedSum : Obligations.AddStoresTheWrappedSum := by
  unfold Obligations.AddStoresTheWrappedSum
  refine ⟨followsTemplate .add, fun s a b i j ha hb => ⟨_, exec_add s ha hb, ?sum, rfl, ?frame⟩⟩
  case sum => simp [alu_add_readReg]
  case frame => exact ⟨sameRegsBut_writeReg_setPc s i _ _, fun _ _ => rfl, rfl, rfl, rfl, rfl⟩

/-- Settles O23: MUL follows the template, and its ALU result is one register write of the wrapped product. -/
theorem mulStoresTheWrappedProduct : Obligations.MulStoresTheWrappedProduct := by
  unfold Obligations.MulStoresTheWrappedProduct
  refine ⟨followsTemplate .mul, fun s a b i j ha hb => ⟨_, exec_mul s ha hb, ?product, rfl, ?frame⟩⟩
  case product => simp [alu_mul_readReg]
  case frame => exact ⟨sameRegsBut_writeReg_setPc s i _ _, fun _ _ => rfl, rfl, rfl, rfl, rfl⟩

/-- Settles O24: CMP follows the template and writes the comparison's flags and no register, so a second CMP
compares the same values. -/
theorem cmpSetsExactlyOneFlag : Obligations.CmpSetsExactlyOneFlag := by
  unfold Obligations.CmpSetsExactlyOneFlag
  refine ⟨followsTemplate .cmp, fun s a b i j ha hb => ⟨_, exec_cmp s ha hb, compareFlags_less_iff _ _,
    compareFlags_greater_iff _ _, compareFlags_equal_iff _ _, rfl, ?registers, ?memory, ?run, ?again⟩⟩
  case registers => exact fun _ _ => rfl
  case memory => exact fun _ _ => rfl
  case run => exact ⟨rfl, rfl, rfl⟩
  case again => exact ⟨_, exec_cmp _ ha hb, by simp⟩

end Sys2Proof.Machine
end

section
/-! Load-immediate and output (R120, R121): one register written, or one byte emitted. -/

namespace Sys2Proof.Machine

/-- Emitting a byte and moving the pc leaves every register alone (R29). -/
theorem sameRegsBut_emit_setPc (l : List RegIndex) (s : State) (v : Byte) (n : Nat) :
    SameRegsBut l s ((s.emit v).setPc n) := fun r _ => s.emit_readReg r v

/-- Settles O25: LDI follows the template, where operand_a alone is a register operand, and writes the immediate
to one register. -/
theorem ldiLoadsTheImmediate : Obligations.LdiLoadsTheImmediate := by
  unfold Obligations.LdiLoadsTheImmediate
  refine ⟨followsTemplate .ldi, fun s a imm i ha => ⟨_, exec_ldi s imm ha, ?loaded, rfl, ?registers, ?rest⟩⟩
  case loaded => exact s.readReg_writeReg_same i imm
  case registers => exact sameRegsBut_writeReg_setPc s i imm _
  case rest => exact ⟨fun _ _ => rfl, rfl, rfl, rfl, rfl⟩

/-- Settles O26: PRN follows the template and emits the register's byte, which touches the output alone. -/
theorem prnEmitsTheRegister : Obligations.PrnEmitsTheRegister := by
  unfold Obligations.PrnEmitsTheRegister
  refine ⟨followsTemplate .prn, fun s a i ha => ⟨_, exec_prn s ha, ?emitted, rfl, ?registers, ?rest⟩⟩
  case emitted => exact s.emit_out (s.readReg i)
  case registers => exact sameRegsBut_emit_setPc [] s _ _
  case rest => exact ⟨fun _ _ => rfl, rfl, rfl, rfl⟩

end Sys2Proof.Machine
end

section
/-! The two stack primitives (R132, R133): the stack pointer they leave, and their frames. -/

namespace Sys2Proof.Machine

section
variable (s : State) (value : State → Byte)

/-- The decremented stack pointer fits a byte, so storing it in R7 loses nothing (R132). -/
theorem toNat_ofNat_sp_pred : (BitVec.ofNat 8 (s.sp - 1)).toNat = s.sp - 1 :=
  Nat.mod_eq_of_lt (Nat.lt_of_le_of_lt (Nat.sub_le _ _) (s.readReg spIndex).isLt)

theorem pushed_sp : (pushed s value).sp = s.sp - 1 := by
  rw [State.sp, pushed_readReg, if_pos rfl]
  exact toNat_ofNat_sp_pred s

/-- The value is evaluated where the stack pointer is already the new one (R132). -/
theorem pushed_read_top :
    (pushed s value).mem.read (s.sp - 1) = value (s.writeReg spIndex (BitVec.ofNat 8 (s.sp - 1))) :=
  Memory.read_write_same s.mem _ _

theorem sameRegsBut_pushed : SameRegsBut [spIndex] s (pushed s value) :=
  fun r hr => (pushed_readReg s value r).trans (if_neg (List.ne_of_not_mem_cons hr))

theorem sameBytesBut_pushed : SameBytesBut [s.sp - 1] s (pushed s value) :=
  sameBytesBut_write s (s.sp - 1) _

end

/-- Settles O35: with room the push answers the pushed state, whose parts stand above; without room it raises what
the range check raises. -/
theorem stackPushPrimitive : Obligations.StackPushPrimitive := by
  unfold Obligations.StackPushPrimitive
  refine fun s value => ⟨fun hlow hhigh => ?room, fun hout => ?noRoom⟩
  case room =>
    exact ⟨_, stackPush_of_room value hlow hhigh, pushed_sp s value, pushed_read_top s value,
      sameRegsBut_pushed s value, sameBytesBut_pushed s value, rfl, rfl, rfl, rfl, rfl⟩
  case noRoom => exact stackPush_of_no_room value hout

theorem popBase_reg (s : State) (i : RegIndex) :
    popBase s (.reg i) = if i = 7 then (s.mem.read s.sp).toNat else s.sp := by
  simp [popBase, State.sp]

theorem popBase_of_ne {s : State} {dest : PopDest} (h : dest ≠ .reg spIndex) : popBase s dest = s.sp := if_neg h

theorem reg_ne_reg_spIndex {i : RegIndex} (h : i ≠ 7) : PopDest.reg i ≠ .reg spIndex :=
  fun he => h (PopDest.reg.inj he)

/-- The incremented stack pointer fits a byte, because it is an address of memory (R133, R6). -/
theorem popped_sp {s : State} {dest : PopDest} (hM : s.cfg.memSize ≤ 256)
    (hnext : popBase s dest + 1 < s.cfg.memSize) : (popped s dest).sp = popBase s dest + 1 := by
  have hfits : popBase s dest + 1 < 2 ^ 8 := Nat.lt_of_lt_of_le hnext hM
  simpa [State.sp, popped] using hfits

/-- A popped register holds the byte at the old stack pointer; R7 is incremented afterwards (R133). -/
theorem popped_readReg_dest (s : State) {i : RegIndex} (hi : i ≠ 7) :
    (popped s (.reg i)).readReg i = s.mem.read s.sp := by
  rw [popped_readReg, if_neg hi, if_pos rfl, State.sp]

theorem sameRegsBut_popped (s : State) (i : RegIndex) : SameRegsBut [i, spIndex] s (popped s (.reg i)) := by
  intro r hr
  obtain ⟨hri, hrsp⟩ : r ≠ i ∧ r ≠ spIndex := by simpa using hr
  rw [popped_readReg, if_neg hrsp, if_neg hri]

theorem sameRegsBut_popped_seven (s : State) : SameRegsBut [7] s (popped s (.reg 7)) :=
  fun r hr => sameRegsBut_popped s 7 r (by simpa using hr)

theorem sameRegsBut_popped_pc (s : State) : SameRegsBut [spIndex] s (popped s .pc) :=
  fun r hr => (popped_pc_readReg s r).trans (if_neg (List.ne_of_not_mem_cons hr))

theorem sameBytesBut_popped (s : State) (dest : PopDest) : SameBytesBut [] s (popped s dest) :=
  fun a _ => congrArg (Memory.read · a) (popped_mem s dest)

theorem sameRunOutCfg_popped (s : State) (dest : PopDest) : SameRunOutCfg s (popped s dest) :=
  ⟨popped_run s dest, popped_out s dest, popped_cfg s dest⟩

/-- Settles O36: each destination decides which byte is incremented, and the three answers of the pop primitive
follow from where that byte's successor lies. -/
theorem stackPopPrimitive : Obligations.StackPopPrimitive := by
  unfold Obligations.StackPopPrimitive
  intro s hM
  have hpc : popBase s .pc = s.sp := popBase_of_ne nofun
  have hsp : popBase s (.reg 7) = (s.mem.read s.sp).toNat := popBase_reg s 7
  refine ⟨fun hout d => stackPop_of_sp_out d hout, ?nextOut, ?toReg, ?toPc, ?sevenOut, ?toSeven⟩
  case nextOut =>
    intro hin hout d hd
    rw [← popBase_of_ne hd] at hout ⊢
    exact stackPop_of_next_out hin hout
  case toReg =>
    intro hnext r hr
    have hbase : popBase s (.reg r) = s.sp := popBase_of_ne (reg_ne_reg_spIndex hr)
    have hroom : popBase s (.reg r) + 1 < s.cfg.memSize := hbase ▸ hnext
    exact ⟨_, stackPop_of_room (Nat.lt_of_succ_lt hnext) hroom, popped_readReg_dest s hr,
      hbase ▸ popped_sp hM hroom, sameRegsBut_popped s r, sameBytesBut_popped s _, rfl, rfl,
      sameRunOutCfg_popped s _⟩
  case toPc =>
    intro hnext
    have hroom : popBase s .pc + 1 < s.cfg.memSize := hpc ▸ hnext
    exact ⟨_, stackPop_of_room (Nat.lt_of_succ_lt hnext) hroom, popped_pc s, hpc ▸ popped_sp hM hroom,
      sameRegsBut_popped_pc s, sameBytesBut_popped s _, rfl, sameRunOutCfg_popped s _⟩
  case sevenOut =>
    intro hin hout
    rw [← hsp] at hout ⊢
    exact stackPop_of_next_out hin hout
  case toSeven =>
    intro hin hnext
    rw [← hsp] at hnext ⊢
    exact ⟨_, stackPop_of_room hin hnext, popped_sp hM hnext, sameRegsBut_popped_seven s,
      sameBytesBut_popped s _, rfl, rfl, sameRunOutCfg_popped s _⟩

end Sys2Proof.Machine
end

section
/-! PUSH and POP (R130, R131): the stack primitives with a register operand, and the pc moved. -/

namespace Sys2Proof.Machine

/-- The byte PUSH stores: `PUSH R7` stores the decremented stack pointer (R130). -/
theorem pushed_read_top_reg (s : State) (i : RegIndex) :
    ((pushed s (fun s1 => s1.readReg i)).mem.read (s.sp - 1)).toNat =
      if i = 7 then s.sp - 1 else (s.readReg i).toNat := by
  rw [pushed_read_top, State.readReg_writeReg]
  split
  · exact toNat_ofNat_sp_pred s
  · rfl

/-- Settles O27: PUSH follows the template; with room it completes with the push primitive's state and the pc
moved, and without room it raises the push primitive's error. -/
theorem pushStoresBelowTheStackPointer : Obligations.PushStoresBelowTheStackPointer := by
  unfold Obligations.PushStoresBelowTheStackPointer
  refine ⟨followsTemplate .push, fun s a i ha => ⟨fun hlow hhigh => ?room, fun hout => ?noRoom⟩⟩
  case room =>
    exact ⟨_, (Completed.push i ha hlow hhigh).exec_eq, pushed_sp s (State.readReg · i),
      pushed_read_top_reg s i, rfl, sameRegsBut_pushed s (State.readReg · i),
      sameBytesBut_pushed s (State.readReg · i), rfl, rfl, rfl, rfl⟩
  case noRoom =>
    rw [exec_push s ha, stackPush_of_no_room _ hout]
    rfl

/-- Settles O28: POP follows the template; it completes with the pop primitive's state and the pc moved, or raises
the pop primitive's error. -/
theorem popLoadsFromTheStackPointer : Obligations.PopLoadsFromTheStackPointer := by
  unfold Obligations.PopLoadsFromTheStackPointer
  refine ⟨followsTemplate .pop, fun s a i ha hM => ?_⟩
  simp only [← popBase_reg]
  refine ⟨fun hin hnext => ?room, fun hout => ?spOut, fun hin hout => ?nextOut⟩
  case room =>
    exact ⟨_, (Completed.pop i ha hin hnext).exec_eq, popped_readReg_dest s, popped_sp hM hnext, rfl,
      sameRegsBut_popped s i, sameBytesBut_popped s _, rfl, sameRunOutCfg_popped s _⟩
  case spOut =>
    rw [exec_pop s ha, stackPop_of_sp_out _ hout]
    rfl
  case nextOut =>
    rw [exec_pop s ha, stackPop_of_next_out hin hout]
    rfl

end Sys2Proof.Machine
end

section
/-! Control transfer and halt (R140 to R145): the pc moved alone, CALL and RET over the stack primitives, and HLT. -/

namespace Sys2Proof.Machine

/-- Moving the pc leaves everything else alone (R24). -/
theorem frame_setPc (s : State) (n : Nat) :
    SameRegsBut [] s (s.setPc n) ∧ SameBytesBut [] s (s.setPc n) ∧ (s.setPc n).flags = s.flags ∧
      SameRunOutCfg s (s.setPc n) :=
  ⟨fun _ _ => rfl, fun _ _ => rfl, rfl, rfl, rfl, rfl⟩

/-- Settles O31: JMP follows the template and moves the pc alone, to the register's value. -/
theorem jmpGoesToTheRegister : Obligations.JmpGoesToTheRegister := by
  unfold Obligations.JmpGoesToTheRegister
  exact ⟨followsTemplate .jmp, fun s a i ha => ⟨_, exec_jmp s ha, rfl, frame_setPc s _⟩⟩

/-- Settles O32: JEQ follows the template and moves the pc alone; E decides between its two values. -/
theorem jeqJumpsIfEqual : Obligations.JeqJumpsIfEqual := by
  unfold Obligations.JeqJumpsIfEqual
  refine ⟨followsTemplate .jeq, fun s a i ha => ⟨_, exec_jeq s ha, fun hE => ?taken, fun hE => ?notTaken,
    frame_setPc s _⟩⟩
  case taken => exact if_pos hE
  case notTaken => exact if_neg (Bool.eq_false_iff.mp hE)

/-- Settles O33: JNE follows the template and moves the pc alone; E decides between its two values. -/
theorem jneJumpsIfNotEqual : Obligations.JneJumpsIfNotEqual := by
  unfold Obligations.JneJumpsIfNotEqual
  refine ⟨followsTemplate .jne, fun s a i ha => ⟨_, exec_jne s ha, fun hE => ?taken, fun hE => ?notTaken,
    frame_setPc s _⟩⟩
  case taken => exact if_neg (Bool.eq_false_iff.mp hE)
  case notTaken => exact if_pos hE

/-- Settles O34: HLT follows the template and enters Halted, from which R80 takes no step. -/
theorem hltHalts : Obligations.HltHalts := by
  unfold Obligations.HltHalts
  refine ⟨followsTemplate .hlt, fun s => ⟨_, exec_hlt s, rfl, rfl, ?registers, ?memory, rfl, rfl, rfl, ?final⟩⟩
  case registers => exact fun _ _ => rfl
  case memory => exact fun _ _ => rfl
  case final => exact step_halted rfl

/-- The pushed return address is the exact `pc + 2` where that fits a byte (R140). -/
theorem pushed_read_top_returnAddress {s : State} (hfits : s.pc + 2 < 256) :
    ((pushed s returnAddress).mem.read (s.sp - 1)).toNat = s.pc + 2 := by
  rw [pushed_read_top]
  exact Nat.mod_eq_of_lt hfits

/-- CALL's target, read after the push (R140). -/
theorem pushed_target {a : Byte} {i : RegIndex} (ha : a.toNat = i.val) (s : State) (value : State → Byte) :
    ((pushed s value).readReg i).toNat = if i = 7 then s.sp - 1 else (s.readReg i).toNat := by
  simpa only [← eq_spIndex_iff ha, regByte_of_index ha] using pushed_readReg_toNat ha s value

/-- Settles O29: CALL follows the template; with room it completes with the push primitive's state and the pc at
the target, and without room it raises the push primitive's error. -/
theorem callPushesTheReturnAddress : Obligations.CallPushesTheReturnAddress := by
  unfold Obligations.CallPushesTheReturnAddress
  refine ⟨followsTemplate .call, fun s a i ha => ⟨fun hlow hhigh => ?room, fun hout => ?noRoom⟩⟩
  case room =>
    exact ⟨_, (Completed.call i ha hlow hhigh).exec_eq, pushed_sp s returnAddress,
      pushed_read_top_returnAddress, pushed_target ha s returnAddress, sameRegsBut_pushed s returnAddress,
      sameBytesBut_pushed s returnAddress, rfl, rfl, rfl, rfl⟩
  case noRoom =>
    rw [exec_call s ha, stackPush_of_no_room _ hout]
    rfl

/-- Settles O30: RET follows the template and answers what the pop primitive answers for the pc, whose base is
the stack pointer itself. -/
theorem retPopsThePc : Obligations.RetPopsThePc := by
  unfold Obligations.RetPopsThePc
  refine ⟨followsTemplate .ret, fun s hM => ?_⟩
  have hbase : popBase s .pc = s.sp := popBase_of_ne nofun
  rw [← hbase]
  refine ⟨fun hnext => ?room, fun hout => ?spOut, fun hin hout => ?nextOut⟩
  case room =>
    exact ⟨_, (Completed.ret (Nat.lt_of_succ_lt hnext) hnext).exec_eq, popped_pc s, popped_sp hM hnext,
      sameRegsBut_popped_pc s, sameBytesBut_popped s _, rfl, sameRunOutCfg_popped s _⟩
  case spOut =>
    rw [exec_ret, stackPop_of_sp_out _ hout]
    rfl
  case nextOut =>
    rw [exec_ret, stackPop_of_next_out hin hout]
    rfl

end Sys2Proof.Machine
end

section
/-! The priority of errors (R165) and the kinds a step raises (R163): the table `firstError` at each stage of the
step, and the step's answer there. -/

namespace Sys2Proof

/-- No register operand is invalid: the instruction is well formed (R85). -/
theorem Instr.wellFormed_of_firstInvalid_none {i : Instr} (h : Machine.firstInvalid i.regOperands = none) :
    i.wellFormed = true := by
  refine List.all_eq_true.mpr fun v hv => decide_eq_true ?_
  simpa using List.find?_eq_none.mp h v hv

end Sys2Proof

namespace Sys2Proof.Machine

/-- R165 item 1: of the window's addresses the first that does not exist is the pc or `MEM_SIZE`. -/
theorem firstError_of_window_out {s : State} (hw : s.cfg.memSize ≤ s.pc + 2) :
    firstError s = some (.addressing, ((max s.pc s.cfg.memSize : Nat) : Int)) := by
  unfold firstError
  by_cases h0 : s.cfg.memSize ≤ s.pc
  · simp [h0]
  · by_cases h1 : s.cfg.memSize ≤ s.pc + 1
    · have hmissing : max s.pc s.cfg.memSize = s.pc + 1 := by omega
      simp [h0, h1, hmissing]
    · have hmissing : max s.pc s.cfg.memSize = s.pc + 2 := by omega
      simp [h0, h1, hw, hmissing]

section
variable {s : State} (hw : s.pc + 2 < s.cfg.memSize)
include hw

theorem window_addresses_exist :
    ¬ s.cfg.memSize ≤ s.pc ∧ ¬ s.cfg.memSize ≤ s.pc + 1 ∧ ¬ s.cfg.memSize ≤ s.pc + 2 := by omega

/-- R165 item 2: with the whole window in memory, an opcode byte that selects no mnemonic. -/
theorem firstError_of_select_none (hk : s.cfg.opcodes.select (s.mem.read s.pc) = none) :
    firstError s = some (.decode, ((s.mem.read s.pc).toNat : Int)) := by
  simp [firstError, window_addresses_exist hw, decodeWindow_error.mpr ⟨hk, rfl⟩]

variable {k : Mnemonic} (hk : s.cfg.opcodes.select (s.mem.read s.pc) = some k) {i : Instr}
  (hi : i = k.instr (s.mem.read (s.pc + 1)) (s.mem.read (s.pc + 2)))
include hk hi

/-- R165 item 3: the decoded instruction's first invalid register operand. -/
theorem firstError_of_firstInvalid {n : Byte} (hn : firstInvalid i.regOperands = some n) :
    firstError s = some (.invalidRegister, (n.toNat : Int)) := by
  simp [firstError, window_addresses_exist hw, decodeWindow_of_select hk, ← hi, hn]

/-- R165 item 4: with valid register operands the stack check alone remains. -/
theorem firstError_of_firstInvalid_none (hn : firstInvalid i.regOperands = none) :
    firstError s = (stackError i s).map (fun addr => (.addressing, addr)) := by
  simp [firstError, window_addresses_exist hw, decodeWindow_of_select hk, ← hi, hn]

end

/-- A step from a Running state raises the first error, or there is none and it leaves a state that is not
Faulted. -/
theorem step_firstError_cases {s : State} (hrun : s.run = .running) :
    (∃ kind info, firstError s = some (kind, info) ∧ step s = .next (faultState s kind info)) ∨
    (firstError s = none ∧ ∃ t, step s = .next t ∧ ¬ t.isFaulted) := by
  rcases step_running hrun with ⟨hw, hstep⟩ | ⟨hw, hk, hstep⟩ | ⟨hw, k, hk, hstep⟩
  · exact .inl ⟨_, _, firstError_of_window_out hw, hstep⟩
  · exact .inl ⟨_, _, firstError_of_select_none hw hk, hstep⟩
  · generalize hi : k.instr (s.mem.read (s.pc + 1)) (s.mem.read (s.pc + 2)) = i at hstep
    rw [hstep]
    cases hn : firstInvalid i.regOperands with
    | some n => exact .inl ⟨_, _, firstError_of_firstInvalid hw hk hi.symm hn, exec_of_firstInvalid hn s⟩
    | none =>
      have hwf := Instr.wellFormed_of_firstInvalid_none hn
      rw [firstError_of_firstInvalid_none hw hk hi.symm hn]
      cases hse : stackError i s with
      | some addr => exact .inl ⟨_, _, rfl, exec_of_stackError hwf hse⟩
      | none =>
        obtain ⟨t, hc⟩ := completed_of_stackError_none hwf hse
        exact .inr ⟨rfl, t, hc.exec_eq, hc.not_isFaulted hrun⟩

/-- Settles O16: at each stage of the step the table and the step name the same error, and with no error left
the instruction completes. -/
theorem stepReportsTheFirstError : Obligations.StepReportsTheFirstError := by
  unfold Obligations.StepReportsTheFirstError
  intro s hrun
  rcases step_firstError_cases hrun with ⟨kind, info, hfirst, hstep⟩ | ⟨hfirst, hdone⟩
  · simp [hfirst, hstep]
  · simpa [hfirst] using hdone

theorem FetchError.kind_ne_unsupportedOperation {s : State} {e : CoreError} (h : FetchError s e) :
    e.kind ≠ .unsupportedOperation := by
  cases h with
  | window | opcode => nofun

theorem Raisable.kind_ne_unsupportedOperation {s : State} {e : CoreError} (h : Raisable s e) :
    e.kind ≠ .unsupportedOperation := by
  cases h with
  | register | address => nofun

/-- Settles O17: a Faulted state is left by an error of the fetch or of the instruction, and neither has that
kind. -/
theorem unsupportedOperationIsNeverRaised : Obligations.UnsupportedOperationIsNeverRaised := by
  unfold Obligations.UnsupportedOperationIsNeverRaised
  intro s t f h hf
  obtain ⟨hrun, ⟨e, rfl, he⟩ | ⟨k, ins, -, -, -, hc⟩⟩ := step_next_cases h
  · obtain rfl := RunState.faulted.inj hf
    exact he.elim (·.kind_ne_unsupportedOperation) (·.kind_ne_unsupportedOperation)
  · exact absurd ⟨f, hf⟩ (hc.not_isFaulted hrun)

end Sys2Proof.Machine
end

section
/-! The frame of a completed instruction, one field of the state per lemma: which instructions can change it, and
to what. -/

namespace Sys2Proof.Machine

/-- Exactly one flag is set after a comparison (R102). -/
theorem compareFlags_cases (u v : Byte) :
    compareFlags u v = { less := true, greater := false, equal := false } ∨
    compareFlags u v = { less := false, greater := true, equal := false } ∨
    compareFlags u v = { less := false, greater := false, equal := true } := by
  rcases Nat.lt_trichotomy u.toNat v.toNat with hlt | heq | hgt
  · exact .inl (by simp [compareFlags, hlt, hlt.ne, hlt.le])
  · exact .inr (.inr (by simp [compareFlags, heq]))
  · exact .inr (.inl (by simp [compareFlags, hgt, hgt.ne', hgt.le]))

section
variable {s t : State} {ins : Instr} (h : Completed s ins t)
include h

theorem Completed.cfg_eq : t.cfg = s.cfg := by
  cases h with
  | hlt | ret | push | pop | prn | call | jmp | jeq | jne | ldi | add | mul | cmp => simp

/-- HLT alone changes the run state (R28). -/
theorem Completed.run_eq (hins : ins ≠ .hlt) : t.run = s.run := by
  cases h with
  | hlt => exact absurd rfl hins
  | ret | push | pop | prn | call | jmp | jeq | jne | ldi | add | mul | cmp => simp

/-- Compare alone writes the flags (R26). -/
theorem Completed.flags_cases :
    t.flags = s.flags ∨ ∃ a b u v, ins = .cmp a b ∧ t.flags = compareFlags u v := by
  cases h with
  | cmp => exact .inr ⟨_, _, _, _, rfl, rfl⟩
  | hlt | ret | push | pop | prn | call | jmp | jeq | jne | ldi | add | mul => exact .inl (by simp)

/-- PRN alone emits (R29). -/
theorem Completed.out_cases :
    t.out = s.out ∨ ∃ (a : Byte) (r : RegIndex), ins = .prn a ∧ a.toNat = r.val ∧
      t.out = s.out ++ [s.readReg r] := by
  cases h with
  | prn i ha => exact .inr ⟨_, i, rfl, ha, rfl⟩
  | hlt | ret | push | pop | call | jmp | jeq | jne | ldi | add | mul | cmp => exact .inl (by simp)

/-- PUSH and CALL alone store, one byte at an address that exists (R41, R44). -/
theorem Completed.mem_cases :
    t.mem = s.mem ∨ (storedAt ins s = [s.sp - 1] ∧ s.sp - 1 < s.cfg.memSize ∧
      ∃ v, t.mem = s.mem.write (s.sp - 1) v) := by
  cases h with
  | push i ha hlow hhigh | call i ha hlow hhigh => exact .inr ⟨rfl, Nat.sub_one_lt_of_le hlow hhigh, _, rfl⟩
  | hlt | ret | pop | prn | jmp | jeq | jne | ldi | add | mul | cmp => exact .inl (by simp)

/-- Each write of an instruction goes to a register it is tabled to write (R22). -/
theorem Completed.readReg_of_not_written {r : RegIndex} (hr : r.val ∉ writtenRegs ins) :
    t.readReg r = s.readReg r := by
  cases h with
  | hlt | prn | jmp | jeq | jne | cmp => rfl
  | ldi i ha | add i j ha | mul i j ha =>
    have hi : r ≠ i := by simpa [writtenRegs, ha, Fin.ext_iff] using hr
    exact State.readReg_writeReg_ne s i r _ hi
  | push | call =>
    have hsp : r ∉ [spIndex] := by simpa [writtenRegs, Fin.ext_iff] using hr
    rw [State.setPc_readReg]
    exact sameRegsBut_pushed s _ r hsp
  | ret =>
    have hsp : r ∉ [spIndex] := by simpa [writtenRegs, Fin.ext_iff] using hr
    exact sameRegsBut_popped_pc s r hsp
  | pop i ha =>
    have hi : r ∉ [i, spIndex] := by simpa [writtenRegs, ha, Fin.ext_iff] using hr
    exact sameRegsBut_popped s i r hi

/-- A pc is a byte or the address behind an instruction of at most three bytes (R24, R87). -/
theorem Completed.pc_le (hpc : s.pc + 2 < 256) : t.pc ≤ 256 := by
  have byte : ∀ v : Byte, v.toNat ≤ 256 := fun v => v.isLt.le
  cases h with
  | hlt | push | pop | prn | ldi | add | mul | cmp =>
    simp only [State.setPc_pc]
    omega
  | ret | call | jmp => exact byte _
  | jeq =>
    simp only [State.setPc_pc]
    split
    · exact byte _
    · omega
  | jne =>
    simp only [State.setPc_pc]
    split
    · omega
    · exact byte _

end

end Sys2Proof.Machine
end

section
/-! The invariant, one lemma per way a step ends: an error, and a completed instruction (R24, R26, R161). -/

namespace Sys2Proof

theorem Config.memSize_le_of_valid {c : Config} (h : c.valid = true) : c.memSize ≤ 256 := by
  simp only [Config.valid, Bool.and_eq_true, decide_eq_true_eq] at h
  exact h.1.2

theorem Config.distinct_of_valid {c : Config} (h : c.valid = true) : c.opcodes.distinct = true :=
  (Bool.and_eq_true_iff.mp h).2

end Sys2Proof

namespace Sys2Proof.Machine

/-- The record an error leaves fits the state it leaves (R161, R162). -/
theorem Raisable.fits {s : State} {e : CoreError} (h : Raisable s e) :
    FaultRecord.Fits { kind := e.kind, pc := s.pc, info := e.info } (s.raise e) := by
  cases h with
  | @register v hv =>
    have hbyte := v.isLt
    exact ⟨rfl, by simp only; omega⟩
  | address hout => exact ⟨rfl, hout⟩

/-- A byte that selects no mnemonic of a map of distinct bytes is the value of none (R66). -/
theorem FetchError.fits {s : State} {e : CoreError} (hs : s.Inv) (h : FetchError s e) :
    FaultRecord.Fits { kind := e.kind, pc := s.pc, info := e.info } (s.raise e) := by
  cases h with
  | window => exact ⟨rfl, .inr (by simp only [State.raise_cfg]; omega)⟩
  | opcode hnone =>
    have hbyte := (s.mem.read s.pc).isLt
    refine ⟨rfl, by simp only; omega, by simp only; omega, fun k hk => ?_⟩
    have hop : s.cfg.opcodes.byteOf k = s.mem.read s.pc := BitVec.toNat_inj.mp (Int.ofNat_inj.mp hk)
    simp [← hop, OpcodeMap.select_byteOf (Config.distinct_of_valid hs.cfg_valid) k] at hnone

/-- An error changes the run state alone, so its record is all there is to check (R166). -/
theorem State.Inv.raise {s : State} {e : CoreError} (h : s.Inv)
    (hfits : FaultRecord.Fits { kind := e.kind, pc := s.pc, info := e.info } (s.raise e)) :
    (s.raise e).Inv where
  cfg_valid := h.cfg_valid
  pc_range := h.pc_range
  flags_exclusive := h.flags_exclusive
  mem_wf := h.mem_wf
  mem_below := h.mem_below
  fault_fits _ hf := RunState.faulted.inj hf ▸ hfits

theorem compareFlags_exclusive (u v : Byte) :
    ((compareFlags u v).less && (compareFlags u v).greater) = false ∧
    ((compareFlags u v).less && (compareFlags u v).equal) = false ∧
    ((compareFlags u v).greater && (compareFlags u v).equal) = false := by
  rcases compareFlags_cases u v with h | h | h <;> rw [h] <;> decide

/-- An instruction fetched from inside memory keeps the invariant when it completes. -/
theorem Completed.inv {s t : State} {ins : Instr} (h : Completed s ins t) (hs : s.Inv)
    (hrun : s.run = .running) (hw : s.pc + 2 < s.cfg.memSize) : t.Inv where
  cfg_valid := h.cfg_eq ▸ hs.cfg_valid
  pc_range := h.pc_le (Nat.lt_of_lt_of_le hw (Config.memSize_le_of_valid hs.cfg_valid))
  flags_exclusive := by
    rcases h.flags_cases with heq | ⟨-, -, u, v, -, heq⟩
    · exact heq ▸ hs.flags_exclusive
    · exact heq ▸ compareFlags_exclusive u v
  mem_wf := by
    rcases h.mem_cases with heq | ⟨-, -, v, heq⟩
    · exact heq ▸ hs.mem_wf
    · exact heq ▸ Memory.wf_write s.mem _ v hs.mem_wf
  mem_below := by
    rw [h.cfg_eq]
    rcases h.mem_cases with heq | ⟨-, hlt, v, heq⟩
    · exact heq ▸ hs.mem_below
    · exact heq ▸ Memory.below_write _ s.mem _ v hlt hs.mem_below
  fault_fits f hf := absurd ⟨f, hf⟩ (h.not_isFaulted hrun)

/-- Settles O3: a step ends in an error, whose record fits, or in an instruction that completed from inside
memory; both keep the invariant. -/
theorem everyStepKeepsTheInvariant : Obligations.EveryStepKeepsTheInvariant := by
  unfold Obligations.EveryStepKeepsTheInvariant
  intro s t hs h
  obtain ⟨hrun, ⟨e, rfl, he | he⟩ | ⟨k, ins, -, hw, -, hc⟩⟩ := step_next_cases h
  · exact hs.raise (he.fits hs)
  · exact hs.raise he.fits
  · exact hc.inv hs hrun hw

/-- Settles O4: neither an error nor a completed instruction changes the parameters. -/
theorem noStepChangesTheParameters : Obligations.NoStepChangesTheParameters := by
  unfold Obligations.NoStepChangesTheParameters
  intro s t h
  obtain ⟨-, ⟨e, rfl, -⟩ | ⟨k, ins, -, -, -, hc⟩⟩ := step_next_cases h
  · exact s.raise_cfg e
  · exact hc.cfg_eq

/-- Settles O18: an error leaves Faulted, and of the completed instructions HLT alone leaves Running. -/
theorem onlyHltHalts : Obligations.OnlyHltHalts := by
  unfold Obligations.OnlyHltHalts
  intro s t h ht
  obtain ⟨hrun, ⟨e, rfl, -⟩ | ⟨k, ins, rfl, -, hk, hc⟩⟩ := step_next_cases h
  · nomatch ht
  · have hins : k.instr (s.mem.read (s.pc + 1)) (s.mem.read (s.pc + 2)) = .hlt := by
      by_contra hne
      simp [hc.run_eq hne, hrun] at ht
    obtain rfl : k = .hlt := by rw [← k.instr_mnemonic, hins]; rfl
    exact ((OpcodeMap.select_eq_some _ _ _).mp hk).1.symm

end Sys2Proof.Machine
end

section
/-! Encoding and decoding (R60, R66): the bytes `encode` writes are the ones `decodeWindow` reads. -/

namespace Sys2Proof

theorem encodingShape : ∀ i : Instr, Laws.EncodingShape.Statement i
  | .hlt => Laws.EncodingShape.hlt
  | .ret => Laws.EncodingShape.ret
  | .push a => Laws.EncodingShape.push a
  | .pop a => Laws.EncodingShape.pop a
  | .prn a => Laws.EncodingShape.prn a
  | .call a => Laws.EncodingShape.call a
  | .jmp a => Laws.EncodingShape.jmp a
  | .jeq a => Laws.EncodingShape.jeq a
  | .jne a => Laws.EncodingShape.jne a
  | .ldi a imm => Laws.EncodingShape.ldi a imm
  | .add a b => Laws.EncodingShape.add a b
  | .mul a b => Laws.EncodingShape.mul a b
  | .cmp a b => Laws.EncodingShape.cmp a b

/-- The encoding is the opcode byte and the operand bytes the format uses: the window's bytes up to the
format's length (R60). -/
theorem encode_instr (m : OpcodeMap) (k : Mnemonic) (a b : Byte) :
    encode m (k.instr a b) = [m.byteOf k, a, b].take k.format.length := by
  cases k with
  | hlt | ret | push | pop | prn | call | jmp | jeq | jne | ldi | add | mul | cmp => rfl

/-- A window that begins with the encoding of an instruction holds its opcode byte and its operand bytes; what
follows the encoding fills the bytes its format ignores (R60, R63). -/
theorem encode_append_eq_window (m : OpcodeMap) (i : Instr) (rest : List Byte)
    (h : 3 ≤ (encode m i ++ rest).length) :
    ∃ a b rest', encode m i ++ rest = m.byteOf i.mnemonic :: a :: b :: rest' ∧ i.mnemonic.instr a b = i := by
  cases i with
  | hlt | ret =>
    match rest, h with
    | a :: b :: rest', _ => exact ⟨a, b, rest', rfl, rfl⟩
  | push a | pop a | prn a | call a | jmp a | jeq a | jne a =>
    match rest, h with
    | b :: rest', _ => exact ⟨a, b, rest', rfl, rfl⟩
  | ldi a b | add a b | mul a b | cmp a b => exact ⟨a, b, rest, rfl, rfl⟩

/-- Settles O5: the window of an encoded instruction holds its opcode byte, which selects its mnemonic, and the
operand bytes it uses. -/
theorem decodeGivesBackTheEncodedInstruction : Obligations.DecodeGivesBackTheEncodedInstruction := by
  unfold Obligations.DecodeGivesBackTheEncodedInstruction
  intro m i rest hm hlen
  obtain ⟨a, b, rest', hbytes, hi⟩ := encode_append_eq_window m i rest hlen
  rw [hbytes, decode, decodeWindow_of_select (OpcodeMap.select_byteOf hm _), hi]

/-- Settles O6: the encoding of the decoded instruction is the window up to the format's length. -/
theorem decodedWindowBeginsWithItsEncoding : Obligations.DecodedWindowBeginsWithItsEncoding := by
  unfold Obligations.DecodedWindowBeginsWithItsEncoding
  intro m op a b i h
  obtain ⟨k, hk, rfl⟩ := decodeWindow_ok.mp h
  obtain ⟨rfl, -⟩ := (m.select_eq_some op k).mp hk
  refine ⟨⟨[m.byteOf k, a, b].drop k.format.length, ?_⟩, (encodingShape _ m).1⟩
  rw [encode_instr, List.take_append_drop]

end Sys2Proof
end

section
/-! One instruction executed in two states (R22, R26, R64): a relation that its errors and its completions keep is
kept by every outcome. -/

namespace Sys2Proof.Machine

/-- Two states that raise alike, as `exec_alike` says when they do, run to related states if errors leave related
states and so does completing. -/
theorem exec_related {i : Instr} {s s' t : State} (h : exec i s = .next t) (R : State → State → Prop)
    (hM : s'.cfg.memSize = s.cfg.memSize) (hsp : usesStack i = true → s'.readReg spIndex = s.readReg spIndex)
    (htop : ∀ a ∈ loadedAt i.mnemonic s, s'.mem.read a = s.mem.read a)
    (hraise : ∀ e, R (s.raise e) (s'.raise e))
    (hdone : ∀ u, Completed s i u → ∃ u', Completed s' i u' ∧ R u u') : ∃ t', exec i s' = .next t' ∧ R t t' := by
  rcases exec_alike i s s' hM hsp htop with ⟨e, he, he'⟩ | ⟨u, -, hu, -, hc, -⟩
  · obtain rfl : t = s.raise e := by simpa [h] using he
    exact ⟨_, he', hraise e⟩
  · obtain rfl : t = u := by simpa [h] using hu
    obtain ⟨u', hc', hR⟩ := hdone t hc
    exact ⟨u', hc'.exec_eq, hR⟩

end Sys2Proof.Machine
end

section
/-! The stack law and the call law (43_stack.md, 44_control_transfer.md), from the statements about PUSH, POP, CALL
and RET. -/

namespace Sys2Proof.Machine

/-- PUSH of a register other than R7 stores its value (R130). -/
theorem exec_push_value {s : State} {a : Byte} {r : RegIndex} (ha : a.toNat = r.val) (hr : r ≠ 7)
    (hlow : 1 ≤ s.sp) (hhigh : s.sp ≤ s.cfg.memSize) :
    ∃ t, exec (.push a) s = .next t ∧ t.sp = s.sp - 1 ∧ t.mem.read (s.sp - 1) = s.readReg r ∧
      SameRegsBut [7] s t ∧ SameBytesBut [s.sp - 1] s t ∧ t.cfg = s.cfg := by
  obtain ⟨t, ht, hsp, htop, -, hregs, hbytes, -, -, -, hcfg⟩ :=
    (pushStoresBelowTheStackPointer.2 s a r ha).1 hlow hhigh
  rw [if_neg hr] at htop
  exact ⟨t, ht, hsp, BitVec.toNat_inj.mp htop, hregs, hbytes, hcfg⟩

/-- POP into a register other than R7 loads the top of the stack (R131). -/
theorem exec_pop_value {s : State} {a : Byte} {r : RegIndex} (ha : a.toNat = r.val) (hr : r ≠ 7)
    (hM : s.cfg.memSize ≤ 256) (hnext : s.sp + 1 < s.cfg.memSize) :
    ∃ t, exec (.pop a) s = .next t ∧ t.readReg r = s.mem.read s.sp ∧ t.sp = s.sp + 1 ∧
      SameRegsBut [r, 7] s t ∧ SameBytesBut [] s t ∧ t.cfg = s.cfg := by
  obtain ⟨t, ht, hval, hsp, -, hregs, hbytes, -, -, -, hcfg⟩ :=
    (popLoadsFromTheStackPointer.2 s a r ha hM).1 (Nat.lt_of_succ_lt hnext) (by rwa [if_neg hr])
  rw [if_neg hr] at hsp
  exact ⟨t, ht, hval hr, hsp, hregs, hbytes, hcfg⟩

theorem readReg_seven_of_sp {s t : State} (h : t.sp = s.sp) : t.readReg 7 = s.readReg 7 :=
  BitVec.toNat_inj.mp h

/-- Settles O37: each POP loads the byte of the PUSH whose stack pointer it finds; a byte pushed later lies below
it. -/
theorem popGivesBackWhatPushStored : Obligations.PopGivesBackWhatPushStored := by
  unfold Obligations.PopGivesBackWhatPushStored
  refine ⟨?copies, ?reverses⟩
  case copies =>
    intro s a b r q ha hb hr hq hM hlow hhigh
    obtain ⟨t, ht, htsp, httop, htregs, htbytes, htcfg⟩ := exec_push_value ha hr hlow hhigh.le
    obtain ⟨u, hu, huq, husp, huregs, hubytes, -⟩ :=
      exec_pop_value (s := t) hb hq (htcfg ▸ hM) (by rw [htcfg, htsp]; omega)
    have hsp : u.sp = s.sp := by omega
    refine ⟨t, u, ht, hu, ?value, hsp, ?registers, ?top, ?memory⟩
    case value => rw [huq, htsp, httop]
    case registers =>
      intro p hp
      by_cases h7 : p = 7
      · exact h7 ▸ readReg_seven_of_sp hsp
      · rw [huregs p (by simpa [h7] using hp), htregs p (by simpa using h7)]
    case top => rw [hubytes _ (by simp), httop]
    case memory => exact fun p hp => (hubytes p (by simp)).trans (htbytes p hp)
  case reverses =>
    intro s a b r q ha hb hr hq hrq hM hlow hhigh
    obtain ⟨t, ht, htsp, httop, htregs, -, htcfg⟩ := exec_push_value ha hr (by omega) hhigh.le
    obtain ⟨u, hu, husp, hutop, -, hubytes, hucfg⟩ :=
      exec_push_value (s := t) hb hq (by omega) (by rw [htcfg]; omega)
    have hM' : u.cfg.memSize = s.cfg.memSize := by rw [hucfg, htcfg]
    obtain ⟨v, hv, hvr, hvsp, -, hvbytes, hvcfg⟩ :=
      exec_pop_value (s := u) ha hr (hM' ▸ hM) (by omega)
    obtain ⟨w, hw, hwq, hwsp, hwregs, -, -⟩ :=
      exec_pop_value (s := v) hb hq (by rw [hvcfg, hM']; exact hM) (by rw [hvcfg, hM']; omega)
    refine ⟨t, u, v, w, ht, hu, hv, hw, ?first, ?second, by omega⟩
    case first => rw [hwregs r (by simp [hr, hrq]), hvr, husp, hutop, htregs q (by simpa using hq)]
    case second =>
      have hkept : t.sp ∉ [t.sp - 1] := by simp only [List.mem_singleton]; omega
      have hvt : v.sp = t.sp := by omega
      rw [hwq, hvt, hvbytes _ (by simp), hubytes _ hkept, htsp, httop]

/-- Settles O38: CALL leaves `pc + 2` at the top of the stack, and RET pops the pc from there. -/
theorem retComesBackAfterTheCall : Obligations.RetComesBackAfterTheCall := by
  unfold Obligations.RetComesBackAfterTheCall
  intro s a i ha hcfg hw hlow hhigh
  have hM := Config.memSize_le_of_valid hcfg
  obtain ⟨t, ht, htsp, httop, -⟩ := (callPushesTheReturnAddress.2 s a i ha).1 hlow hhigh.le
  refine ⟨t, ht, fun u hucfg husp hutop => ?_⟩
  obtain ⟨v, hv, hvpc, hvsp, -⟩ := (retPopsThePc.2 u (hucfg ▸ hM)).1 (by rw [hucfg]; omega)
  refine ⟨v, hv, ?_, by omega⟩
  rw [hvpc, hutop, htsp, httop (by omega)]

end Sys2Proof.Machine
end

section
/-! Whole-machine rules over every outcome of an instruction: what it may write (R22, R26, R29, R41). -/

namespace Sys2Proof.Machine

/-- Settles O39: an error leaves the flags, and so does every completed instruction but Compare. -/
theorem onlyCompareWritesTheFlags : Obligations.OnlyCompareWritesTheFlags := by
  unfold Obligations.OnlyCompareWritesTheFlags
  intro i s t h
  rcases exec_next_cases h with hc | ⟨e, rfl, -⟩
  · rcases hc.flags_cases with heq | ⟨a, b, u, v, rfl, heq⟩
    · exact .inl heq
    · exact .inr ⟨⟨a, b, rfl⟩, heq ▸ compareFlags_cases u v⟩
  · exact .inl (s.raise_flags e)

/-- Settles O42: an error writes no register, and a completed instruction only the tabled ones. -/
theorem onlyTabledRegistersAreWritten : Obligations.OnlyTabledRegistersAreWritten := by
  unfold Obligations.OnlyTabledRegistersAreWritten
  intro i s t h r hr
  rcases exec_next_cases h with hc | ⟨e, rfl, -⟩
  · exact hc.readReg_of_not_written hr
  · exact s.raise_readReg r e

/-- Settles O46: an error emits nothing, and of the completed instructions PRN alone emits. -/
theorem onlyPrnEmits : Obligations.OnlyPrnEmits := by
  unfold Obligations.OnlyPrnEmits
  intro i s t h
  rcases exec_next_cases h with hc | ⟨e, rfl, -⟩
  · exact hc.out_cases
  · exact .inl (s.raise_out e)

theorem exec_cfg {i : Instr} {s t : State} (h : exec i s = .next t) : t.cfg = s.cfg := by
  rcases exec_next_cases h with hc | ⟨e, rfl, -⟩
  · exact hc.cfg_eq
  · exact s.raise_cfg e

/-- Every byte but the one an instruction is tabled to store is left alone (R41, R44). -/
theorem exec_sameBytesBut {i : Instr} {s t : State} (h : exec i s = .next t) :
    SameBytesBut (storedAt i s) s t := by
  intro p hp
  rcases exec_next_cases h with hc | ⟨e, rfl, -⟩
  · rcases hc.mem_cases with heq | ⟨hst, -, v, heq⟩
    · rw [heq]
    · rw [heq]
      exact sameBytesBut_write s _ v p (hst ▸ hp)
  · rw [s.raise_mem e]

/-- An instruction that does not use the stack completes alike with any memory, and leaves it as it is. -/
theorem Completed.withMem_of_not_usesStack {s t : State} {ins : Instr} (h : Completed s ins t)
    (hns : usesStack ins = false) (m : Memory) : Completed { s with mem := m } ins { t with mem := m } := by
  cases h with
  | ret | push | pop | call => nomatch hns
  | hlt => exact .hlt
  | prn i ha => exact .prn i ha
  | jmp i ha => exact .jmp i ha
  | jeq i ha => exact .jeq i ha
  | jne i ha => exact .jne i ha
  | ldi i ha => exact .ldi i ha
  | add i j ha hb => exact .add i j ha hb
  | mul i j ha hb => exact .mul i j ha hb
  | cmp i j ha hb => exact .cmp i j ha hb

/-- An instruction that does not use the stack loads nothing (R41). -/
theorem loadedAt_of_not_usesStack {ins : Instr} (h : usesStack ins = false) (s : State) :
    loadedAt ins.mnemonic s = [] := by
  cases ins with
  | ret | push | pop | call => nomatch h
  | hlt | prn | jmp | jeq | jne | ldi | add | mul | cmp => rfl

/-- Settles O44: the frame of memory stands above; without the stack both outcomes of the instruction are the
same with another memory. -/
theorem onlyTheStackInstructionsReachMemory : Obligations.OnlyTheStackInstructionsReachMemory := by
  unfold Obligations.OnlyTheStackInstructionsReachMemory
  refine ⟨fun i s t h => exec_sameBytesBut h, fun i s t m hns h => ?_⟩
  obtain ⟨t', ht', rfl⟩ := exec_related h (s' := { s with mem := m }) (fun u u' => u' = { u with mem := m })
    rfl (fun _ => rfl) (by simp [loadedAt_of_not_usesStack hns]) (fun _ => rfl)
    (fun _ hc => ⟨_, hc.withMem_of_not_usesStack hns m, rfl⟩)
  exact ht'

/-- Settles O45: the fetch reads the memory of the state it is made in, which differs from the memory before the
instruction where the instruction stored. -/
theorem storedBytesAreSeenByLaterFetches : Obligations.StoredBytesAreSeenByLaterFetches := by
  unfold Obligations.StoredBytesAreSeenByLaterFetches
  intro i s t p h hp
  have hbytes := exec_sameBytesBut h
  have hw : p + 2 < t.cfg.memSize := exec_cfg h ▸ hp
  exact ⟨_, fetchWindow_of_lt (s := { t with pc := p }) hw, rfl, rfl, rfl, hbytes p, hbytes (p + 1),
    hbytes (p + 2)⟩

end Sys2Proof.Machine
end

section
/-! Control-transfer targets (R146). -/

namespace Sys2Proof.Machine

theorem ne_hlt_of_transfer {i : Instr} (h : i.mnemonic ∈ [Mnemonic.call, .ret, .jmp, .jeq, .jne]) : i ≠ .hlt := by
  rintro rfl
  revert h
  decide

/-- A control transfer goes on to the next instruction or to a byte (R87, R146). -/
theorem Completed.pc_of_transfer {s t : State} {i : Instr} (h : Completed s i t)
    (hi : i.mnemonic ∈ [Mnemonic.call, .ret, .jmp, .jeq, .jne]) : t.pc = s.pc + 2 ∨ t.pc ≤ 255 := by
  have byte : ∀ v : Byte, v.toNat ≤ 255 := fun v => Nat.le_of_lt_succ v.isLt
  cases h with
  | ret | call | jmp => exact .inr (byte _)
  | jeq =>
    simp only [State.setPc_pc]
    split
    · exact .inr (byte _)
    · exact .inl rfl
  | jne =>
    simp only [State.setPc_pc]
    split
    · exact .inl rfl
    · exact .inr (byte _)
  | hlt | push | pop | prn | ldi | add | mul | cmp => simp [Instr.mnemonic] at hi

/-- Settles O47: without an error of its own a transfer completes with its tabled pc, and that pc meets its first
check in the fetch of the next step. -/
theorem targetsAreCheckedAtTheNextFetch : Obligations.TargetsAreCheckedAtTheNextFetch := by
  unfold Obligations.TargetsAreCheckedAtTheNextFetch
  refine ⟨fun i s hi hwf hse => ?completes, fun i s t hi hrun h ht => ⟨?target, step_of_window_out ht⟩⟩
  case completes =>
    obtain ⟨t, hc⟩ := completed_of_stackError_none hwf hse
    exact ⟨t, hc.exec_eq, hc.run_eq (ne_hlt_of_transfer hi), hc.pc_eq_nextPc⟩
  case target =>
    rcases exec_next_cases h with hc | ⟨e, rfl, -⟩
    · exact hc.pc_of_transfer hi
    · nomatch ht

end Sys2Proof.Machine
end

section
/-! Noninterference (R22, R26, R64): flags and parameters that an instruction does not use. -/

namespace Sys2Proof.Machine

/-! Other flags. -/

/-- `t'` is `t` but for its flags, and these are the given ones where the old ones were kept, or the same
computed ones. -/
def SameButFlags (s : State) (f : Flags) (t t' : State) : Prop :=
  { t' with flags := t.flags } = t ∧ ((t'.flags = f ∧ t.flags = s.flags) ∨ t'.flags = t.flags)

theorem sameButFlags_of_kept {s t : State} (f : Flags) (h : t.flags = s.flags) :
    SameButFlags s f t { t with flags := f } := ⟨rfl, .inl ⟨rfl, h⟩⟩

/-- With other flags, and the same E for the instructions that read it, an instruction completes alike: no other
value it uses depends on them. -/
theorem Completed.withFlags {s t : State} {ins : Instr} (h : Completed s ins t) {f : Flags}
    (hE : ins.mnemonic = .jeq ∨ ins.mnemonic = .jne → f.equal = s.flags.equal) :
    ∃ t', Completed { s with flags := f } ins t' ∧ SameButFlags s f t t' := by
  cases h with
  | hlt => exact ⟨_, .hlt, sameButFlags_of_kept f rfl⟩
  | ret hsp hnext => exact ⟨_, .ret hsp hnext, sameButFlags_of_kept f rfl⟩
  | push i ha hlow hhigh => exact ⟨_, .push i ha hlow hhigh, sameButFlags_of_kept f rfl⟩
  | pop i ha hsp hnext => exact ⟨_, .pop i ha hsp hnext, sameButFlags_of_kept f rfl⟩
  | prn i ha => exact ⟨_, .prn i ha, sameButFlags_of_kept f rfl⟩
  | call i ha hlow hhigh => exact ⟨_, .call i ha hlow hhigh, sameButFlags_of_kept f rfl⟩
  | jmp i ha => exact ⟨_, .jmp i ha, sameButFlags_of_kept f rfl⟩
  | jeq i ha =>
    rw [← hE (.inl rfl)]
    exact ⟨_, .jeq i ha, sameButFlags_of_kept f rfl⟩
  | jne i ha =>
    rw [← hE (.inr rfl)]
    exact ⟨_, .jne i ha, sameButFlags_of_kept f rfl⟩
  | ldi i ha => exact ⟨_, .ldi i ha, sameButFlags_of_kept f rfl⟩
  | add i j ha hb => exact ⟨_, .add i j ha hb, sameButFlags_of_kept f rfl⟩
  | mul i j ha hb => exact ⟨_, .mul i j ha hb, sameButFlags_of_kept f rfl⟩
  | cmp i j ha hb => exact ⟨_, .cmp i j ha hb, rfl, .inr rfl⟩

theorem exec_withFlags {i : Instr} {s t : State} {f : Flags}
    (hE : i.mnemonic = .jeq ∨ i.mnemonic = .jne → f.equal = s.flags.equal) (h : exec i s = .next t) :
    ∃ t', exec i { s with flags := f } = .next t' ∧ SameButFlags s f t t' :=
  exec_related h (SameButFlags s f) rfl (fun _ => rfl) (fun _ _ => rfl) (fun _ => sameButFlags_of_kept f rfl)
    (fun _ hc => hc.withFlags hE)

/-- The fetch and the decoder read no flag at all (R81, R82). -/
theorem step_withFlags {s t : State} {f : Flags} (hE : f.equal = s.flags.equal) (h : step s = .next t) :
    ∃ t', step { s with flags := f } = .next t' ∧ SameButFlags s f t t' := by
  obtain ⟨hrun, -⟩ := step_next_cases h
  rcases step_running hrun with ⟨hw, he⟩ | ⟨hw, hk, he⟩ | ⟨hw, k, hk, he⟩
  · obtain rfl : s.raise _ = t := Host.Outcome.next.inj (he.symm.trans h)
    exact ⟨_, step_of_window_out (s := { s with flags := f }) hrun hw, sameButFlags_of_kept f rfl⟩
  · obtain rfl : s.raise _ = t := Host.Outcome.next.inj (he.symm.trans h)
    exact ⟨_, step_of_select_none (s := { s with flags := f }) hrun hw hk, sameButFlags_of_kept f rfl⟩
  · rw [step_of_select (s := { s with flags := f }) hrun hw hk]
    exact exec_withFlags (fun _ => hE) (he.symm.trans h)

/-- Settles O40: of the values an instruction uses, only the target of JEQ and JNE depends on a flag. -/
theorem onlyConditionalJumpsReadTheFlags : Obligations.OnlyConditionalJumpsReadTheFlags := by
  unfold Obligations.OnlyConditionalJumpsReadTheFlags
  intro i s t f hjeq hjne h
  obtain ⟨t', ht', hsame, hflags⟩ := exec_withFlags (f := f) (fun hj => (hj.elim hjeq hjne).elim) h
  exact ⟨t', ht', hsame, hflags.imp And.left id⟩

/-- Settles O41: the step with other L and G but the same E differs in its flags alone, and these agree on E. -/
theorem lessAndGreaterAreNeverRead : Obligations.LessAndGreaterAreNeverRead := by
  unfold Obligations.LessAndGreaterAreNeverRead
  intro s t l g h
  obtain ⟨t', ht', hsame, hflags⟩ := step_withFlags (f := ⟨l, g, s.flags.equal⟩) rfl h
  refine ⟨t', ht', ?_, hsame⟩
  rcases hflags with ⟨hnew, hold⟩ | heq
  · rw [hnew, hold]
  · rw [heq]

/-! Other parameters. -/

/-- Of the parameters an instruction uses `MEM_SIZE` alone (R6, R64). -/
theorem Completed.withCfg {s t : State} {ins : Instr} (h : Completed s ins t) {c : Config}
    (hM : s.cfg.memSize = c.memSize) : Completed { s with cfg := c } ins { t with cfg := c } := by
  cases h with
  | hlt => exact .hlt
  | ret hsp hnext => exact .ret (hM ▸ hsp) (hM ▸ hnext)
  | push i ha hlow hhigh => exact .push i ha hlow (hM ▸ hhigh)
  | pop i ha hsp hnext => exact .pop i ha (hM ▸ hsp) (hM ▸ hnext)
  | prn i ha => exact .prn i ha
  | call i ha hlow hhigh => exact .call i ha hlow (hM ▸ hhigh)
  | jmp i ha => exact .jmp i ha
  | jeq i ha => exact .jeq i ha
  | jne i ha => exact .jne i ha
  | ldi i ha => exact .ldi i ha
  | add i j ha hb => exact .add i j ha hb
  | mul i j ha hb => exact .mul i j ha hb
  | cmp i j ha hb => exact .cmp i j ha hb

/-- Settles O48: an instruction executes alike under parameters with the same `MEM_SIZE`, and it changes none of
them. -/
theorem opcodeMapMattersToDecodingAlone : Obligations.OpcodeMapMattersToDecodingAlone := by
  unfold Obligations.OpcodeMapMattersToDecodingAlone
  intro i s t m v h
  obtain ⟨t', ht', rfl⟩ := exec_related h
    (s' := { s with cfg := { s.cfg with opcodes := m, spInit := v } })
    (fun u u' => u' = { u with cfg := { s.cfg with opcodes := m, spInit := v } })
    rfl (fun _ => rfl) (fun _ _ => rfl) (fun _ => rfl) (fun _ hc => ⟨_, hc.withCfg rfl, rfl⟩)
  rw [ht', exec_cfg h]

end Sys2Proof.Machine
end

section
/-! Other registers (R22): the registers an instruction does not read. -/

namespace Sys2Proof.Machine

/-- Each register has one value in both results, or its old value in each. -/
def RegsMatchOrKept (s s' t t' : State) : Prop :=
  ∀ r, t'.readReg r = t.readReg r ∨ (t'.readReg r = s'.readReg r ∧ t.readReg r = s.readReg r)

theorem regsMatchOrKept_of_kept (s s' : State) : RegsMatchOrKept s s' s s' := fun _ => .inr ⟨rfl, rfl⟩

/-- Writing the same value to the same register on both sides keeps the relation. -/
theorem RegsMatchOrKept.writeReg {s s' t t' : State} (h : RegsMatchOrKept s s' t t') (i : RegIndex) (v : Byte) :
    RegsMatchOrKept s s' (t.writeReg i v) (t'.writeReg i v) := by
  intro r
  by_cases hr : r = i
  · exact .inl (by simp [hr])
  · simpa only [State.readReg_writeReg_ne _ _ _ _ hr] using h r

/-- `t'` is `t` but for its registers, which match those of `t` or were kept from `s'` and `s`. -/
def SameButKeptRegs (s s' t t' : State) : Prop := { t' with reg := t.reg } = t ∧ RegsMatchOrKept s s' t t'

theorem stackInstr_reads_sp {i : Instr} (h : usesStack i = true) : spIndex.val ∈ readRegs i := by
  cases i with
  | push | pop | call | ret => simp [readRegs]
  | hlt | prn | jmp | jeq | jne | ldi | add | mul | cmp => nomatch h

section
variable {s : State} {g : Vector Byte 8}

/-- A push depends on the registers through the stack pointer and the pushed value alone (R132). -/
theorem sameButKeptRegs_pushed {value : State → Byte}
    (hsp : ({ s with reg := g } : State).readReg spIndex = s.readReg spIndex)
    (hvalue : ∀ v, value (({ s with reg := g } : State).writeReg spIndex v) = value (s.writeReg spIndex v)) :
    SameButKeptRegs s { s with reg := g } (pushed s value) (pushed { s with reg := g } value) := by
  refine ⟨by simp [pushed, hsp, hvalue], fun r => ?_⟩
  simp only [pushed_readReg, hsp]
  split
  · exact .inl rfl
  · exact .inr ⟨rfl, rfl⟩

theorem popBase_withReg (hsp : ({ s with reg := g } : State).readReg spIndex = s.readReg spIndex)
    (dest : PopDest) : popBase { s with reg := g } dest = popBase s dest := by
  simp only [popBase, hsp]

/-- A pop depends on the registers through the stack pointer alone (R133). -/
theorem sameButKeptRegs_popped (hsp : ({ s with reg := g } : State).readReg spIndex = s.readReg spIndex)
    (dest : PopDest) : SameButKeptRegs s { s with reg := g } (popped s dest) (popped { s with reg := g } dest) := by
  have hkept := regsMatchOrKept_of_kept s { s with reg := g }
  simp only [popped, popBase_withReg hsp, hsp]
  cases dest with
  | reg i => exact ⟨rfl, (hkept.writeReg i _).writeReg spIndex _⟩
  | pc => exact ⟨rfl, hkept.writeReg spIndex _⟩

/-- Writing one value to one register of both states, whatever registers they have. -/
theorem sameButKeptRegs_writeReg (s : State) (g : Vector Byte 8) (i : RegIndex) (v : Byte) :
    SameButKeptRegs s { s with reg := g } (s.writeReg i v) (({ s with reg := g } : State).writeReg i v) :=
  ⟨rfl, (regsMatchOrKept_of_kept s { s with reg := g }).writeReg i v⟩

theorem SameButKeptRegs.setPc {s s' t t' : State} (h : SameButKeptRegs s s' t t') (n : Nat) :
    SameButKeptRegs s s' (t.setPc n) (t'.setPc n) :=
  ⟨congrArg (State.setPc · n) h.1, h.2⟩

/-- With other values in registers it does not read, an instruction completes alike (R22). -/
theorem Completed.withReg {t : State} {ins : Instr} (h : Completed s ins t)
    (hread : ∀ r : RegIndex, r.val ∈ readRegs ins → ({ s with reg := g } : State).readReg r = s.readReg r) :
    ∃ t', Completed { s with reg := g } ins t' ∧ SameButKeptRegs s { s with reg := g } t t' := by
  have unwritten : ∀ u : State, u.reg = s.reg → SameButKeptRegs s { s with reg := g } u { u with reg := g } := by
    intro u hu
    exact ⟨rfl, fun r => .inr ⟨rfl, by rw [State.readReg, State.readReg, hu]⟩⟩
  cases h with
  | hlt => exact ⟨_, .hlt, unwritten _ rfl⟩
  | ret hsp hnext =>
    have h7 := hread spIndex (by simp [readRegs])
    exact ⟨_, .ret (h7 ▸ hsp) (popBase_withReg h7 _ ▸ hnext), sameButKeptRegs_popped h7 .pc⟩
  | push i ha hlow hhigh =>
    have h7 := hread spIndex (by simp [readRegs])
    have hi := hread i (by simp [readRegs, ha])
    exact ⟨_, .push i ha (h7 ▸ hlow) (h7 ▸ hhigh),
      (sameButKeptRegs_pushed h7 fun v => by simp only [State.readReg_writeReg, hi]).setPc _⟩
  | pop i ha hsp hnext =>
    have h7 := hread spIndex (by simp [readRegs])
    exact ⟨_, .pop i ha (h7 ▸ hsp) (popBase_withReg h7 _ ▸ hnext), (sameButKeptRegs_popped h7 (.reg i)).setPc _⟩
  | prn i ha =>
    have hi := hread i (by simp [readRegs, ha])
    rw [← hi]
    exact ⟨_, .prn i ha, unwritten _ rfl⟩
  | call i ha hlow hhigh =>
    have h7 := hread spIndex (by simp [readRegs])
    have hi := hread i (by simp [readRegs, ha])
    have htarget : (pushed { s with reg := g } returnAddress).readReg i = (pushed s returnAddress).readReg i := by
      simp only [pushed_readReg, h7, hi]
    rw [← htarget]
    exact ⟨_, .call i ha (h7 ▸ hlow) (h7 ▸ hhigh), (sameButKeptRegs_pushed h7 fun _ => rfl).setPc _⟩
  | jmp i ha =>
    rw [← hread i (by simp [readRegs, ha])]
    exact ⟨_, .jmp i ha, unwritten _ rfl⟩
  | jeq i ha =>
    rw [← hread i (by simp [readRegs, ha])]
    exact ⟨_, .jeq i ha, unwritten _ rfl⟩
  | jne i ha =>
    rw [← hread i (by simp [readRegs, ha])]
    exact ⟨_, .jne i ha, unwritten _ rfl⟩
  | ldi i ha => exact ⟨_, .ldi i ha, (sameButKeptRegs_writeReg s g i _).setPc _⟩
  | add i j ha hb =>
    have hi := hread i (by simp [readRegs, ha])
    have hj := hread j (by simp [readRegs, hb])
    refine ⟨_, .add i j ha hb, SameButKeptRegs.setPc ?_ _⟩
    simp only [alu, hi, hj]
    exact sameButKeptRegs_writeReg s g i _
  | mul i j ha hb =>
    have hi := hread i (by simp [readRegs, ha])
    have hj := hread j (by simp [readRegs, hb])
    refine ⟨_, .mul i j ha hb, SameButKeptRegs.setPc ?_ _⟩
    simp only [alu, hi, hj]
    exact sameButKeptRegs_writeReg s g i _
  | cmp i j ha hb =>
    have hi := hread i (by simp [readRegs, ha])
    have hj := hread j (by simp [readRegs, hb])
    refine ⟨_, .cmp i j ha hb, SameButKeptRegs.setPc ?_ _⟩
    simp only [alu, hi, hj]
    exact unwritten _ rfl

end

theorem exec_withReg {i : Instr} {s t : State} {g : Vector Byte 8}
    (hread : ∀ r : RegIndex, r.val ∈ readRegs i → ({ s with reg := g } : State).readReg r = s.readReg r)
    (h : exec i s = .next t) :
    ∃ t', exec i { s with reg := g } = .next t' ∧ SameButKeptRegs s { s with reg := g } t t' :=
  exec_related h (SameButKeptRegs s { s with reg := g }) rfl
    (fun hst => hread spIndex (stackInstr_reads_sp hst)) (fun _ _ => rfl)
    (fun _ => ⟨rfl, regsMatchOrKept_of_kept s { s with reg := g }⟩) (fun _ hc => hc.withReg hread)

/-- States that agree on everything but their registers. -/
theorem State.exists_withReg {s s' : State} (hpc : s'.pc = s.pc) (hflags : s'.flags = s.flags)
    (hmem : s'.mem = s.mem) (hrun : s'.run = s.run) (hout : s'.out = s.out) (hcfg : s'.cfg = s.cfg) :
    ∃ g, s' = { s with reg := g } :=
  ⟨s'.reg, by rw [← hpc, ← hflags, ← hmem, ← hrun, ← hout, ← hcfg]⟩

theorem State.fields_of_withReg_eq {t t' : State} {g : Vector Byte 8} (h : { t' with reg := g } = t) :
    t'.pc = t.pc ∧ t'.flags = t.flags ∧ t'.mem = t.mem ∧ t'.run = t.run ∧ t'.out = t.out ∧ t'.cfg = t.cfg := by
  subst h
  exact ⟨rfl, rfl, rfl, rfl, rfl, rfl⟩

/-- Settles O43: the second state is the first with other registers, an error leaves these, and a completed
instruction gets the same values from those it reads. -/
theorem onlyTabledRegistersAreRead : Obligations.OnlyTabledRegistersAreRead := by
  unfold Obligations.OnlyTabledRegistersAreRead
  intro i s s' t hpc hflags hmem hrun hout hcfg hread h
  obtain ⟨g, rfl⟩ := State.exists_withReg hpc hflags hmem hrun hout hcfg
  obtain ⟨t', ht', hsame, hregs⟩ := exec_withReg hread h
  obtain ⟨hpc', hflags', hmem', hrun', hout', hcfg'⟩ := State.fields_of_withReg_eq hsame
  exact ⟨t', ht', hpc', hflags', hmem', hrun', hout', hcfg', hregs⟩

end Sys2Proof.Machine
end

section
/-! Reset and load (R33, R180, R183): the reset values, the invariant, and where the image's bytes go. -/

namespace Sys2Proof.Machine

/-- A register of the reset state: `SP_INIT` in R7, 0 in every other (R33). -/
theorem resetWith_readReg (c : Config) (r : RegIndex) :
    (State.resetWith c).readReg r = if r = 7 then c.spInit else 0 := by
  simp only [State.resetWith, State.readReg, Vector.get_eq_getElem, Vector.getElem_set, Vector.getElem_replicate,
    regInit, Fin.ext_iff]
  simp only [eq_comm]

/-- Settles O1: the registers read as `resetWith_readReg` says; the other fields are the constants of R33. -/
theorem resetHoldsTheSpecifiedValues : Obligations.ResetHoldsTheSpecifiedValues := by
  unfold Obligations.ResetHoldsTheSpecifiedValues
  refine ⟨fun c => ⟨fun r hr => ?zero, ?sp, rfl, rfl, fun _ => rfl, rfl, rfl, rfl⟩, rfl, rfl, rfl⟩
  case zero => rw [resetWith_readReg, if_neg hr]
  case sp => rw [resetWith_readReg, if_pos rfl]

theorem resetWith_inv {c : Config} (hc : c.valid = true) : (State.resetWith c).Inv where
  cfg_valid := hc
  pc_range := Nat.zero_le 256
  flags_exclusive := ⟨rfl, rfl, rfl⟩
  mem_wf := rfl
  mem_below := rfl
  fault_fits := nofun

theorem defaultConfig_valid : defaultConfig.valid = true := by decide

/-- Loading answers the state with the image's bytes from address 0 on, if the image fits (R183, R184). -/
theorem loadImage_ok {image : List Byte} {s t : State} :
    loadImage image s = .ok t ↔
      image.length ≤ s.cfg.memSize ∧ t = { s with mem := s.mem.writeAll 0 image } := by
  unfold loadImage
  split
  · next h => simp [h, eq_comm]
  · next h => simp [h]

/-- Loading touches memory alone, where it keeps the canonical form and stays inside. -/
theorem State.Inv.loadImage {image : List Byte} {s t : State} (hs : s.Inv)
    (h : Machine.loadImage image s = .ok t) : t.Inv := by
  obtain ⟨hlen, rfl⟩ := loadImage_ok.mp h
  exact
    { cfg_valid := hs.cfg_valid
      pc_range := hs.pc_range
      flags_exclusive := hs.flags_exclusive
      mem_wf := Memory.wf_writeAll image s.mem 0 hs.mem_wf
      mem_below := Memory.below_writeAll _ image s.mem 0 (by rwa [Nat.zero_add]) hs.mem_below
      fault_fits := hs.fault_fits }

/-- Settles O2: at reset memory is empty, the pc 0 and no flag set; loading writes existing cells only. -/
theorem resetAndLoadMeetTheInvariant : Obligations.ResetAndLoadMeetTheInvariant := by
  unfold Obligations.ResetAndLoadMeetTheInvariant
  exact ⟨fun _ => resetWith_inv, resetWith_inv defaultConfig_valid, fun _ _ _ hs h => hs.loadImage h⟩

/-- Of bytes written in order, cell `a + k` holds byte `k`: later writes go to higher cells. -/
theorem Memory.read_writeAll_inside (bytes : List Byte) :
    ∀ (m : Memory) (a k : Nat) (hk : k < bytes.length), (m.writeAll a bytes).read (a + k) = bytes[k] := by
  induction bytes with
  | nil => exact fun _ _ _ hk => absurd hk (Nat.not_lt_zero _)
  | cons v vs ih =>
    intro m a k hk
    rw [Memory.writeAll]
    cases k with
    | zero =>
      exact (Memory.read_writeAll_outside vs _ _ a (.inl (Nat.lt_succ_self a))).trans (m.read_write_same a v)
    | succ k =>
      have hcell : a + (k + 1) = a + 1 + k := by omega
      rw [hcell]
      exact ih _ (a + 1) k (Nat.lt_of_succ_lt_succ hk)

/-- Settles O49: the image's bytes are written in order from address 0, and nothing but memory changes. -/
theorem loadPlacesTheImage : Obligations.LoadPlacesTheImage := by
  unfold Obligations.LoadPlacesTheImage
  refine ⟨fun image s hlen => ⟨_, loadImage_ok.mpr ⟨hlen, rfl⟩, ?inside, ?outside, ?registers, ?rest⟩, ?tooLong⟩
  case inside =>
    intro k hk
    simpa using Memory.read_writeAll_inside image s.mem 0 k hk
  case outside => exact fun k hk => Memory.read_writeAll_outside image s.mem 0 k (.inr (by omega))
  case registers => exact fun r _ => s.withMem_readReg r _
  case rest => exact ⟨rfl, rfl, rfl, rfl, rfl⟩
  case tooLong => exact fun image s hlen => if_neg (Nat.not_le.mpr hlen)

end Sys2Proof.Machine
end

section
/-! The register file (R21, R85), sample words (R64), and when a step is taken (R80, R88). -/

namespace Sys2Proof.Machine

/-- Settles O21: the operand check and the register write, as their laws say. -/
theorem registerFileContract : Obligations.RegisterFileContract := by
  unfold Obligations.RegisterFileContract
  refine ⟨fun v hv => ?invalid, fun v hv => ?valid, fun s r q v => s.readReg_writeReg r q v⟩
  case invalid => exact regOperand_error.mpr ⟨hv, rfl⟩
  case valid => exact ⟨⟨v.toNat, hv⟩, regOperand_ok.mpr rfl, rfl⟩

/-- Settles O9: the closed words are decoded by evaluation. -/
theorem sampleWordsDecode : Obligations.SampleWordsDecode := by
  unfold Obligations.SampleWordsDecode
  decide

/-- Settles O10: a window that decodes has selected a mnemonic, whose instruction the step executes. -/
theorem stepRunsTheDecodedInstruction : Obligations.StepRunsTheDecodedInstruction := by
  unfold Obligations.StepRunsTheDecodedInstruction
  intro s i hrun hw hdec
  obtain ⟨k, hk, rfl⟩ := decodeWindow_ok.mp hdec
  exact step_of_select hrun hw hk

/-- A Running machine always has a next state: each error is one, and so is every outcome of an instruction
(R80, R166). -/
theorem exists_step_of_running {s : State} (hrun : s.run = .running) : ∃ t, step s = .next t := by
  rcases step_running hrun with ⟨-, he⟩ | ⟨-, -, he⟩ | ⟨-, k, -, he⟩
  · exact ⟨_, he⟩
  · exact ⟨_, he⟩
  · rw [he]
    rcases exec_cases (k.instr (s.mem.read (s.pc + 1)) (s.mem.read (s.pc + 2))) s with ⟨t, ht, -⟩ | ⟨e, ht, -⟩
    · exact ⟨_, ht⟩
    · exact ⟨_, ht⟩

/-- Settles O11: a Running machine has a step, and the two final run states have none. -/
theorem onlyARunningMachineSteps : Obligations.OnlyARunningMachineSteps := by
  unfold Obligations.OnlyARunningMachineSteps
  refine ⟨fun s => ⟨?starts, exists_step_of_running⟩, fun _ => step_halted, fun _ _ => step_faulted⟩
  case starts =>
    rintro ⟨t, h⟩
    exact (step_next_cases h).1

end Sys2Proof.Machine
end

section
/-! The image text (R184): splitting it into lines, the token of a line, and the byte a token spells. -/

namespace Sys2Proof.Machine

/-! Lines. -/

theorem splitLines_lf (text : List Char) : splitLines ('\n' :: text) = [] :: splitLines text := by
  simp [splitLines]

theorem splitLines_cons {c : Char} {text line : List Char} {rest : List (List Char)} (hc : c ≠ '\n')
    (h : splitLines text = line :: rest) : splitLines (c :: text) = (c :: line) :: rest := by
  unfold splitLines at h ⊢
  simp [hc, h]

/-- A line feed ends the line before it. -/
theorem splitLines_append_lf {line : List Char} (hline : '\n' ∉ line) (text : List Char) :
    splitLines (line ++ '\n' :: text) = line :: splitLines text := by
  induction line with
  | nil => exact splitLines_lf text
  | cons c line ih =>
    obtain ⟨hc, hline⟩ := not_or.mp (List.mem_cons.not.mp hline)
    exact splitLines_cons (Ne.symm hc) (ih hline)

theorem splitLines_of_no_lf {line : List Char} (hline : '\n' ∉ line) : splitLines line = [line] := by
  induction line with
  | nil => rfl
  | cons c line ih =>
    obtain ⟨hc, hline⟩ := not_or.mp (List.mem_cons.not.mp hline)
    exact splitLines_cons (Ne.symm hc) (ih hline)

theorem splitLines_textOf_append {ls : List (List Char)} (hls : ∀ l ∈ ls, '\n' ∉ l) (text : List Char) :
    splitLines (textOf ls ++ text) = ls ++ splitLines text := by
  induction ls with
  | nil => rfl
  | cons l ls ih =>
    obtain ⟨hl, hls⟩ := List.forall_mem_cons.mp hls
    rw [textOf, List.append_assoc, List.cons_append, splitLines_append_lf hl, ih hls, List.cons_append]

theorem textOf_concat (ls : List (List Char)) (l : List Char) : textOf (ls ++ [l]) = textOf ls ++ l ++ ['\n'] := by
  induction ls with
  | nil => simp [textOf]
  | cons l' ls ih => simp [textOf, ih]

/-! The token of a line. -/

theorem isSpace_hash : isSpace '#' = false := by decide

/-- What stands before a comment, or the whole line. -/
theorem takeWhile_comment {body tail : List Char} (hbody : '#' ∉ body) (htail : CommentOrNothing tail) :
    (body ++ tail).takeWhile (fun c => c != '#') = body := by
  have htail' : tail.takeWhile (fun c => c != '#') = [] := by
    rcases htail with rfl | ⟨rest, rfl⟩ <;> simp
  have hall : ∀ c ∈ body, (c != '#') = true := fun c hc => bne_iff_ne.mpr fun h => hbody (h ▸ hc)
  rw [List.takeWhile_append_of_pos hall, htail', List.append_nil]

theorem Blank.hash_not_mem {w : List Char} (hw : Blank w) : '#' ∉ w :=
  fun h => Bool.false_ne_true (isSpace_hash.symm.trans (hw _ h))

theorem trim_blank {w : List Char} (hw : Blank w) : trim w = [] := by
  simp [trim, List.dropWhile_eq_nil_iff.mpr hw]

theorem lineToken_blank {w tail : List Char} (hw : Blank w) (htail : CommentOrNothing tail) :
    lineToken (w ++ tail) = [] := by
  rw [lineToken, takeWhile_comment hw.hash_not_mem htail, trim_blank hw]

/-- Dropping white space in front stops at a token. -/
theorem dropWhile_blank_append {w token : List Char} (hw : Blank w) (hne : token ≠ [])
    (htoken : ∀ c ∈ token, isSpace c = false) (rest : List Char) :
    (w ++ (token ++ rest)).dropWhile isSpace = token ++ rest := by
  rw [List.dropWhile_append_of_pos hw]
  cases token with
  | nil => exact absurd rfl hne
  | cons c cs => simp [htoken c (.head _)]

theorem trim_token {w token w' : List Char} (hw : Blank w) (hw' : Blank w') (hne : token ≠ [])
    (htoken : ∀ c ∈ token, isSpace c = false) : trim (w ++ (token ++ w')) = token := by
  have hback : Blank w'.reverse := fun c hc => hw' c (List.mem_reverse.mp hc)
  have hstop := dropWhile_blank_append hback (List.reverse_ne_nil_iff.mpr hne)
    (fun c hc => htoken c (List.mem_reverse.mp hc)) []
  rw [List.append_nil] at hstop
  rw [trim, dropWhile_blank_append hw hne htoken, List.reverse_append, hstop, List.reverse_reverse]

/-- A token stands between white space, before a comment (R184). -/
theorem lineToken_token {w token w' tail : List Char} (hw : Blank w) (hw' : Blank w')
    (htail : CommentOrNothing tail) (hne : token ≠ []) (htoken : ∀ c ∈ token, isSpace c = false ∧ c ≠ '#') :
    lineToken (w ++ token ++ w' ++ tail) = token := by
  have hhash : '#' ∉ w ++ token ++ w' := by
    simp only [List.mem_append, not_or]
    exact ⟨⟨hw.hash_not_mem, fun h => (htoken _ h).2 rfl⟩, hw'.hash_not_mem⟩
  rw [lineToken, takeWhile_comment hhash htail, List.append_assoc]
  exact trim_token hw hw' hne fun c hc => (htoken c hc).1

/-! The byte of a token. -/

theorem binaryValue_append (xs ys : List Char) :
    ∀ acc, binaryValue acc (xs ++ ys) = (binaryValue acc xs).bind (binaryValue · ys) := by
  induction xs with
  | nil => exact fun _ => rfl
  | cons c xs ih =>
    intro acc
    by_cases h0 : c = '0'
    · simp [binaryValue, h0, ih]
    · by_cases h1 : c = '1' <;> simp [binaryValue, h0, h1, ih]

theorem Spells.binaryValue {ds : List Char} {n : Nat} (h : Spells ds n) : Machine.binaryValue 0 ds = some n := by
  induction h with
  | zero | one => rfl
  | snocZero _ ih => simp [binaryValue_append, ih, Machine.binaryValue]
  | snocOne _ ih => simp [binaryValue_append, ih, Machine.binaryValue]

theorem Spells.ne_nil {ds : List Char} {n : Nat} (h : Spells ds n) : ds ≠ [] := by
  cases h with
  | zero | one | snocZero | snocOne => simp

theorem Spells.digits {ds : List Char} {n : Nat} (h : Spells ds n) : ∀ c ∈ ds, c = '0' ∨ c = '1' := by
  induction h with
  | zero | one => simp
  | snocZero _ ih => exact List.forall_mem_append.mpr ⟨ih, fun c hc => .inl (List.mem_singleton.mp hc)⟩
  | snocOne _ ih => exact List.forall_mem_append.mpr ⟨ih, fun c hc => .inr (List.mem_singleton.mp hc)⟩

/-- A digit is neither white space nor the start of a comment. -/
theorem Spells.token_chars {ds : List Char} {n : Nat} (h : Spells ds n) :
    ∀ c ∈ ds, isSpace c = false ∧ c ≠ '#' := by
  intro c hc
  rcases h.digits c hc with rfl | rfl <;> decide

theorem tokenByte_of_spells {ds : List Char} {n : Nat} (h : Spells ds n) (hn : n ≤ 255) :
    tokenByte ds = .ok (BitVec.ofNat 8 n) := by
  simp [tokenByte, h.binaryValue, hn]

theorem tokenByte_of_large {ds : List Char} {n : Nat} (h : Spells ds n) (hn : 255 < n) :
    tokenByte ds = .error .badToken := by
  simp [tokenByte, h.binaryValue, Nat.not_le.mpr hn]

theorem tokenByte_of_not_digit {token : List Char} {c : Char} (hc : c ∈ token) (h0 : c ≠ '0') (h1 : c ≠ '1') :
    tokenByte token = .error .badToken := by
  obtain ⟨xs, ys, rfl⟩ := List.append_of_mem hc
  have hnone : binaryValue 0 (xs ++ c :: ys) = none := by
    simp [binaryValue_append, binaryValue, h0, h1]
  simp [tokenByte, hnone]

/-! The bytes of the lines. -/

theorem linesBytes_blank {line : List Char} (h : lineToken line = []) (rest : List (List Char)) :
    linesBytes (line :: rest) = linesBytes rest := by
  simp [linesBytes, h]

theorem linesBytes_literal {line token : List Char} {v : Byte} (ht : lineToken line = token) (hne : token ≠ [])
    (h : tokenByte token = .ok v) (rest : List (List Char)) :
    linesBytes (line :: rest) = (linesBytes rest).map (v :: ·) := by
  obtain ⟨c, cs, rfl⟩ := List.exists_cons_of_ne_nil hne
  simp only [linesBytes, ht, h]
  cases linesBytes rest <;> rfl

theorem linesBytes_bad {line token : List Char} {e : LoadFailure} (ht : lineToken line = token) (hne : token ≠ [])
    (h : tokenByte token = .error e) (rest : List (List Char)) : linesBytes (line :: rest) = .error e := by
  obtain ⟨c, cs, rfl⟩ := List.exists_cons_of_ne_nil hne
  simp only [linesBytes, ht, h]

theorem LinesGive.no_lf {ls : List (List Char)} {bs : List Byte} (h : LinesGive ls bs) : ∀ l ∈ ls, '\n' ∉ l := by
  induction h with
  | none => simp
  | blank _ _ hlf _ ih => exact List.forall_mem_cons.mpr ⟨hlf, ih⟩
  | literal _ _ _ _ _ hlf _ ih => exact List.forall_mem_cons.mpr ⟨hlf, ih⟩

/-- Lines that give bytes put these in front of what the lines after them give. -/
theorem LinesGive.linesBytes_append {ls : List (List Char)} {bs : List Byte} (h : LinesGive ls bs)
    (rest : List (List Char)) : linesBytes (ls ++ rest) = (linesBytes rest).map (bs ++ ·) := by
  induction h with
  | none =>
    simp only [List.nil_append]
    cases linesBytes rest <;> rfl
  | blank hw htail _ _ ih =>
    rw [List.cons_append, linesBytes_blank (lineToken_blank hw htail), ih]
  | literal hw hds hn hw' htail _ _ ih =>
    have htoken := lineToken_token hw hw' htail hds.ne_nil hds.token_chars
    rw [List.cons_append, linesBytes_literal htoken hds.ne_nil (tokenByte_of_spells hds hn), ih]
    cases linesBytes rest <;> rfl

theorem BadLine.linesBytes {bad : List Char} (h : BadLine bad) (rest : List (List Char)) :
    Machine.linesBytes (bad :: rest) = .error .badToken := by
  obtain ⟨w, token, w', tail, rfl, hw, hw', htail, -, hne, hchars, hbad⟩ := h
  have htoken := lineToken_token hw hw' htail hne hchars
  refine linesBytes_bad htoken hne ?_ rest
  rcases hbad with ⟨c, hc, h0, h1⟩ | ⟨n, hspells, hn⟩
  · exact tokenByte_of_not_digit hc h0 h1
  · exact tokenByte_of_large hspells hn

theorem BadLine.no_lf {bad : List Char} (h : BadLine bad) : '\n' ∉ bad := by
  obtain ⟨-, -, -, -, -, -, -, -, hlf, -⟩ := h
  exact hlf

theorem LinesGive.parseSource_textOf {ls : List (List Char)} {bs : List Byte} (h : LinesGive ls bs) :
    parseSource (textOf ls) = .ok bs := by
  have hsplit := splitLines_textOf_append h.no_lf []
  rw [List.append_nil] at hsplit
  rw [parseSource, hsplit, h.linesBytes_append]
  simp [splitLines, linesBytes_blank (line := []) rfl, linesBytes, Except.map]

/-- Without its last line feed the text has the same lines. -/
theorem LinesGive.parseSource_textOf_dropLast {ls : List (List Char)} {bs : List Byte} (h : LinesGive ls bs) :
    parseSource (textOf ls).dropLast = .ok bs := by
  rcases List.eq_nil_or_concat' ls with rfl | ⟨ls', l, rfl⟩
  · exact h.parseSource_textOf
  · obtain ⟨hls', hl⟩ := List.forall_mem_append.mp h.no_lf
    have hlines := h.linesBytes_append []
    rw [List.append_nil] at hlines
    rw [parseSource, textOf_concat, List.dropLast_concat, splitLines_textOf_append hls',
      splitLines_of_no_lf (hl l (.head _)), hlines]
    simp [linesBytes, Except.map]

/-- Settles O50: the text splits into its lines, a line's token is found between white space and a comment, and
the first bad token ends the load. -/
theorem imageTextIsReadLineByLine : Obligations.ImageTextIsReadLineByLine := by
  unfold Obligations.ImageTextIsReadLineByLine
  refine ⟨fun ls bs h => ⟨h.parseSource_textOf, h.parseSource_textOf_dropLast⟩, ?bad, fun _ => rfl, ?starts⟩
  case bad =>
    intro ls bs bad rest h hbad
    rw [parseSource, List.append_assoc, splitLines_textOf_append h.no_lf, splitLines_append_lf hbad.no_lf,
      h.linesBytes_append, hbad.linesBytes]
    rfl
  case starts =>
    intro c text bs h
    simp only [startRun, h]

end Sys2Proof.Machine
end
